-- ==== Sys2Proof/Word.lean ====
section
/-! DEFINITION. The one word type of the machine: a byte.

Registers, PC, IR, FL, addresses, immediates, vectors, memory cells and stack items are each one byte
(20_memory.md R63); arithmetic on them is modulo 256 (10_state.md R22), which is arithmetic of `BitVec 8`. -/

namespace Sys2Proof

/-- An 8-bit unsigned value, bit 0 the least significant (00_scope.md section 5). -/
abbrev Byte := BitVec 8

end Sys2Proof
end

