-- ==== Sys2Proof/Config.lean ====
section
/-! DEFINITION. The parameters of 00_scope.md section 4 that are plain numbers.

OPMAP is `opTable` and `opcodeOf` in Decode.lean, SHIFT_AMOUNT is `shiftAmount` and REGIDX is `withReg` in
Machine/Operands.lean; MEM0 is the argument of `State.resetWith`. -/

namespace Sys2Proof.Config

/-- What a memory address with no entry reads as. The spec leaves memory at reset open (MEM0, any 256 bytes;
10_state.md R43, D15).
DESIGN CHOICE (log 1, unsafe): 0x00, the all-zero memory the spec's own vectors start from. -/
def memoryDefault : Byte := 0x00#8

/-- PC_RESET (10_state.md R43). -/
def pcReset : Byte := 0x00#8

/-- SP_RESET (10_state.md R43). -/
def spReset : Byte := 0xF4#8

/-- VECBASE, the base of the interrupt vector table (60_exceptions.md R240). -/
def vectorBase : Byte := 0xF8#8

end Sys2Proof.Config
end

