-- ==== Sys2Proof/Syntax.lean ====
section
/-! DEFINITION. The instruction set: one constructor per row of spec/opcode_table.json (30_encoding.md R98).

An argument is the operand byte as it stands in memory (30_encoding.md R92): `a` operand A, `b` operand B. Whether a
byte that names a register is in 0..7 is the check of WellFormed.lean. -/

namespace Sys2Proof

/-- The 34 instructions, in the order of the opcode map (30_encoding.md R98). -/
inductive Instr where
  | nop
  | hlt
  | ret
  | iret
  | int (a : Byte)
  | push (a : Byte)
  | pop (a : Byte)
  | prn (a : Byte)
  | pra (a : Byte)
  | call (a : Byte)
  | jmp (a : Byte)
  | jeq (a : Byte)
  | jne (a : Byte)
  | jgt (a : Byte)
  | jlt (a : Byte)
  | jle (a : Byte)
  | jge (a : Byte)
  | inc (a : Byte)
  | dec (a : Byte)
  | not (a : Byte)
  | ldi (a : Byte) (imm : Byte)
  | ld (a b : Byte)
  | st (a b : Byte)
  | add (a b : Byte)
  | sub (a b : Byte)
  | mul (a b : Byte)
  | div (a b : Byte)
  | mod (a b : Byte)
  | cmp (a b : Byte)
  | and (a b : Byte)
  | or (a b : Byte)
  | xor (a b : Byte)
  | shl (a b : Byte)
  | shr (a b : Byte)
deriving DecidableEq, Repr

/-- The four instruction formats (30_encoding.md R95). -/
inductive Format where
  | z
  | r
  | rr
  | ri
deriving DecidableEq, Repr

/-- The operation of an instruction: its row of the opcode map without the operand bytes. -/
inductive Mnemonic where
  | NOP | HLT | RET | IRET
  | INT | PUSH | POP | PRN | PRA | CALL | JMP | JEQ | JNE | JGT | JLT | JLE | JGE | INC | DEC | NOT
  | LDI | LD | ST | ADD | SUB | MUL | DIV | MOD | CMP | AND | OR | XOR | SHL | SHR
deriving DecidableEq, Repr

/-- Which operation an instruction is. -/
def Instr.mnemonic : Instr → Mnemonic
  | .nop => .NOP
  | .hlt => .HLT
  | .ret => .RET
  | .iret => .IRET
  | .int _ => .INT
  | .push _ => .PUSH
  | .pop _ => .POP
  | .prn _ => .PRN
  | .pra _ => .PRA
  | .call _ => .CALL
  | .jmp _ => .JMP
  | .jeq _ => .JEQ
  | .jne _ => .JNE
  | .jgt _ => .JGT
  | .jlt _ => .JLT
  | .jle _ => .JLE
  | .jge _ => .JGE
  | .inc _ => .INC
  | .dec _ => .DEC
  | .not _ => .NOT
  | .ldi _ _ => .LDI
  | .ld _ _ => .LD
  | .st _ _ => .ST
  | .add _ _ => .ADD
  | .sub _ _ => .SUB
  | .mul _ _ => .MUL
  | .div _ _ => .DIV
  | .mod _ _ => .MOD
  | .cmp _ _ => .CMP
  | .and _ _ => .AND
  | .or _ _ => .OR
  | .xor _ _ => .XOR
  | .shl _ _ => .SHL
  | .shr _ _ => .SHR

/-- The format of each operation (30_encoding.md R95). -/
def Mnemonic.format : Mnemonic → Format
  | .NOP | .HLT | .RET | .IRET => .z
  | .INT | .PUSH | .POP | .PRN | .PRA | .CALL | .JMP | .JEQ | .JNE | .JGT | .JLT | .JLE | .JGE
  | .INC | .DEC | .NOT => .r
  | .LDI => .ri
  | .LD | .ST | .ADD | .SUB | .MUL | .DIV | .MOD | .CMP | .AND | .OR | .XOR | .SHL | .SHR => .rr

/-- How many operand bytes a format has (30_encoding.md R95). -/
def Format.operandCount : Format → Nat
  | .z => 0
  | .r => 1
  | .rr => 2
  | .ri => 2

/-- The operations whose action writes PC (30_encoding.md R94). -/
def Mnemonic.setsPc : Mnemonic → Bool
  | .RET | .IRET | .CALL | .JMP | .JEQ | .JNE | .JGT | .JLT | .JLE | .JGE => true
  | .NOP | .HLT | .INT | .PUSH | .POP | .PRN | .PRA | .INC | .DEC | .NOT | .LDI | .LD | .ST
  | .ADD | .SUB | .MUL | .DIV | .MOD | .CMP | .AND | .OR | .XOR | .SHL | .SHR => false

end Sys2Proof
end

