-- ==== Sys2Proof/WellFormed.lean ====
section
/-! DEFINITION. Which instructions the spec gives a meaning: those whose register-operand bytes are in 0..7
(30_encoding.md R95, R96). -/

namespace Sys2Proof

/-- An operand byte that names a register: bits 7:3 are 0 (30_encoding.md R95, R96). -/
def isRegister (b : Byte) : Bool := b.toNat < 8

/-- The operand bytes of an instruction that are register indexes, operand A first (30_encoding.md R95, R104). -/
def Instr.registerOperands : Instr → List Byte
  | .nop | .hlt | .ret | .iret => []
  | .int a | .push a | .pop a | .prn a | .pra a | .call a | .jmp a => [a]
  | .jeq a | .jne a | .jgt a | .jlt a | .jle a | .jge a => [a]
  | .inc a | .dec a | .not a | .ldi a _ => [a]
  | .ld a b | .st a b | .cmp a b => [a, b]
  | .add a b | .sub a b | .mul a b | .div a b | .mod a b => [a, b]
  | .and a b | .or a b | .xor a b | .shl a b | .shr a b => [a, b]

/-- Every register operand is in 0..7 (30_encoding.md R96). -/
def Instr.wellFormed (i : Instr) : Bool := i.registerOperands.all isRegister

end Sys2Proof
end

