-- ==== Sys2Proof/Decode.lean ====
section
/-! DEFINITION. The decoder, total on any bytes and rejecting by name, and after it the encoder (30_encoding.md).

`opTable` is the parameter OPMAP with the value of 30_encoding.md R98. Its numbers are the spec's own decision
(D1, D2; UNVERIFIED, log 2). The encoder's table `opcodeOf` is written from R98 a second time, so that the round trip
is a check and no identity. -/

namespace Sys2Proof

/-- One row of the opcode map: the whole opcode byte selects the operation (30_encoding.md R91), and `build` binds
operand A and operand B (R104). -/
structure OpRow where
  opcode : Byte
  build : Byte → Byte → Instr

/-- The Z format (30_encoding.md R95, R98): the two bytes after the opcode are ignored (R92). -/
def opTableZ : List OpRow :=
  [⟨0x00#8, fun _ _ => .nop⟩, ⟨0x01#8, fun _ _ => .hlt⟩, ⟨0x11#8, fun _ _ => .ret⟩, ⟨0x13#8, fun _ _ => .iret⟩]

/-- The R format with SETSPC clear (30_encoding.md R95, R98). -/
def opTableR : List OpRow :=
  [⟨0x42#8, fun a _ => .int a⟩, ⟨0x45#8, fun a _ => .push a⟩, ⟨0x46#8, fun a _ => .pop a⟩,
   ⟨0x47#8, fun a _ => .prn a⟩, ⟨0x48#8, fun a _ => .pra a⟩, ⟨0x65#8, fun a _ => .inc a⟩,
   ⟨0x66#8, fun a _ => .dec a⟩, ⟨0x69#8, fun a _ => .not a⟩]

/-- The R format with SETSPC set (30_encoding.md R94, R95, R98). -/
def opTableJump : List OpRow :=
  [⟨0x50#8, fun a _ => .call a⟩, ⟨0x54#8, fun a _ => .jmp a⟩, ⟨0x55#8, fun a _ => .jeq a⟩,
   ⟨0x56#8, fun a _ => .jne a⟩, ⟨0x57#8, fun a _ => .jgt a⟩, ⟨0x58#8, fun a _ => .jlt a⟩,
   ⟨0x59#8, fun a _ => .jle a⟩, ⟨0x5A#8, fun a _ => .jge a⟩]

/-- The RI format and the loads and stores (30_encoding.md R95, R98). -/
def opTableData : List OpRow :=
  [⟨0x82#8, fun a b => .ldi a b⟩, ⟨0x83#8, fun a b => .ld a b⟩, ⟨0x84#8, fun a b => .st a b⟩]

/-- The RR format of the ALU (30_encoding.md R95, R98). -/
def opTableAlu : List OpRow :=
  [⟨0xA0#8, fun a b => .add a b⟩, ⟨0xA1#8, fun a b => .sub a b⟩, ⟨0xA2#8, fun a b => .mul a b⟩,
   ⟨0xA3#8, fun a b => .div a b⟩, ⟨0xA4#8, fun a b => .mod a b⟩, ⟨0xA7#8, fun a b => .cmp a b⟩,
   ⟨0xA8#8, fun a b => .and a b⟩, ⟨0xAA#8, fun a b => .or a b⟩, ⟨0xAB#8, fun a b => .xor a b⟩,
   ⟨0xAC#8, fun a b => .shl a b⟩, ⟨0xAD#8, fun a b => .shr a b⟩]

/-- The dispatch table of the 34 instructions, fixed (40_execution_cycle.md R128; 30_encoding.md R98). -/
def opTable : List OpRow := opTableZ ++ opTableR ++ opTableJump ++ opTableData ++ opTableAlu

/-- Look an opcode byte up in the dispatch table: a row, or a miss (40_execution_cycle.md R123, R128). -/
def lookupOpcode (op : Byte) : Option OpRow := opTable.find? (fun row => row.opcode == op)

/-- One of the 34 opcode bytes (30_encoding.md R98, R100). -/
def isOpcode (op : Byte) : Bool := (lookupOpcode op).isSome

/-- NOPS, bits 7:6 of the opcode: the operand count (30_encoding.md R91, R93). -/
def operandCountOf (op : Byte) : Byte := (op >>> 6) &&& 0b11#8

/-- SETSPC, bit 4 of the opcode (30_encoding.md R91, R94). -/
def setsPcBit (op : Byte) : Bool := op.getLsbD 4

/-- The length in bytes, found from the opcode byte alone (30_encoding.md R93). -/
def lengthOf (op : Byte) : Nat := 1 + (operandCountOf op).toNat

/-- Why bytes decode to no instruction. -/
inductive Reject where
  /-- The first byte is none of the 34 opcodes: a fatal decode error of the machine (30_encoding.md R100). -/
  | illegalOpcode (op : Byte)
  /-- A register operand is above 7 (30_encoding.md R96): the spec gives the instruction no meaning. -/
  | registerOperandAboveSeven (i : Instr)
  /-- The list ends inside the instruction. The machine never sees this: its addresses wrap (30_encoding.md R108). -/
  | truncated
deriving DecidableEq, Repr

/-- Read one instruction from the front of a list of bytes: opcode, operand A, operand B in memory order
(30_encoding.md R92), and give back the bytes after its last operand, which are no part of it (R102). -/
def decode : List Byte → Except Reject (Instr × List Byte)
  | [] => .error .truncated
  | op :: rest =>
    match lookupOpcode op with
    | none => .error (.illegalOpcode op)
    | some row =>
      if rest.length < (operandCountOf op).toNat then .error .truncated
      else if (row.build (rest.getD 0 0#8) (rest.getD 1 0#8)).wellFormed then
        .ok (row.build (rest.getD 0 0#8) (rest.getD 1 0#8), rest.drop (operandCountOf op).toNat)
      else .error (.registerOperandAboveSeven (row.build (rest.getD 0 0#8) (rest.getD 1 0#8)))

/-- Byte `k` of a number whose bit 0 is the least significant bit of the first byte. -/
def byteOfNumber (w k : Nat) : Byte := BitVec.ofNat 8 (w >>> (8 * k))

/-- The three bytes the machine reads for an instruction given as such a number of `nbits` bits: the bits above
`nbits` are 0 (40_execution_cycle.md R122, R124: opcode, then always two operand bytes). -/
def bytesOfNumber (nbits w : Nat) : List Byte :=
  [byteOfNumber (w % 2 ^ nbits) 0, byteOfNumber (w % 2 ^ nbits) 1, byteOfNumber (w % 2 ^ nbits) 2]

/-- The instruction the decoder reads from an instruction word numbered as spec/opcode_table.json numbers it. -/
def decodeTableWord (nbits w : Nat) : Option Instr :=
  match decode (bytesOfNumber nbits w) with
  | .ok (i, _) => some i
  | .error _ => none

/-! ## The encoder -/

/-- The opcode byte of each instruction, by the binary column of 30_encoding.md R98. -/
def opcodeOf : Instr → Byte
  | .nop => 0b00000000#8
  | .hlt => 0b00000001#8
  | .ret => 0b00010001#8
  | .iret => 0b00010011#8
  | .int _ => 0b01000010#8
  | .push _ => 0b01000101#8
  | .pop _ => 0b01000110#8
  | .prn _ => 0b01000111#8
  | .pra _ => 0b01001000#8
  | .call _ => 0b01010000#8
  | .jmp _ => 0b01010100#8
  | .jeq _ => 0b01010101#8
  | .jne _ => 0b01010110#8
  | .jgt _ => 0b01010111#8
  | .jlt _ => 0b01011000#8
  | .jle _ => 0b01011001#8
  | .jge _ => 0b01011010#8
  | .inc _ => 0b01100101#8
  | .dec _ => 0b01100110#8
  | .not _ => 0b01101001#8
  | .ldi _ _ => 0b10000010#8
  | .ld _ _ => 0b10000011#8
  | .st _ _ => 0b10000100#8
  | .add _ _ => 0b10100000#8
  | .sub _ _ => 0b10100001#8
  | .mul _ _ => 0b10100010#8
  | .div _ _ => 0b10100011#8
  | .mod _ _ => 0b10100100#8
  | .cmp _ _ => 0b10100111#8
  | .and _ _ => 0b10101000#8
  | .or _ _ => 0b10101010#8
  | .xor _ _ => 0b10101011#8
  | .shl _ _ => 0b10101100#8
  | .shr _ _ => 0b10101101#8

/-- The operand bytes of an instruction in memory order (30_encoding.md R92, R95). -/
def operandBytes : Instr → List Byte
  | .nop | .hlt | .ret | .iret => []
  | .int a | .push a | .pop a | .prn a | .pra a | .call a | .jmp a => [a]
  | .jeq a | .jne a | .jgt a | .jlt a | .jle a | .jge a => [a]
  | .inc a | .dec a | .not a => [a]
  | .ldi a imm => [a, imm]
  | .ld a b | .st a b | .cmp a b => [a, b]
  | .add a b | .sub a b | .mul a b | .div a b | .mod a b => [a, b]
  | .and a b | .or a b | .xor a b | .shl a b | .shr a b => [a, b]

/-- The bytes of an instruction, opcode first (30_encoding.md R92, R106). -/
def encode (i : Instr) : List Byte := opcodeOf i :: operandBytes i

end Sys2Proof
end

