-- ==== Sys2Proof/Machine/State.lean ====
section
/-! DEFINITION. The state of the machine, as plain data (10_state.md), and the state after reset (10_state.md R43).

INVENTORY.md lists every field with its rule and its reset value. -/

namespace Sys2Proof.Machine

/-- The index of a general register, 0..7 (10_state.md R20). -/
abbrev Reg := Fin 8

/-- An interrupt line, 0..7: 0 the timer, 1 the keyboard, 2 to 7 reserved but alike (60_exceptions.md R235). -/
abbrev Line := Fin 8

/-- Register 5 is the interrupt mask IM (10_state.md R21, R31). -/
abbrev imReg : Reg := 5

/-- Register 6 is the interrupt status IS (10_state.md R21, R32). -/
abbrev isReg : Reg := 6

/-- Register 7 is the stack pointer SP (10_state.md R21). -/
abbrev spReg : Reg := 7

/-- The run state (10_state.md R28). -/
inductive RunState where
  | running
  | halted
deriving DecidableEq, Repr

/-- The halt cause (10_state.md R28; 60_exceptions.md R230). Its numeric codes are `causeCode`. -/
inductive Cause where
  | none
  | invalidOpcode
  | divZero
  | hlt
deriving DecidableEq, Repr

/-- The kind of an output record (10_state.md R39). -/
inductive EmitKind where
  /-- PRN: the decimal value, followed by a line terminator when rendered. -/
  | num
  /-- PRA: a single character when rendered. -/
  | chr
deriving DecidableEq, Repr

/-- One record of the output channel, `Emit(kind, v)` (10_state.md R39). -/
structure Emission where
  kind : EmitKind
  value : Byte
deriving DecidableEq, Repr

/-- The two signals of a stopping core (10_state.md R40, R42). -/
inductive Signal where
  | stop
  | diag (cause : Cause) (info : Byte)
deriving DecidableEq, Repr

/-- One access of the core at the memory port, with the byte read or written (20_memory.md R61, R66). -/
inductive BusAccess where
  | read (addr value : Byte)
  | write (addr value : Byte)
deriving DecidableEq, Repr

/-- An event of the world outside the core, landing between two ticks (00_scope.md R3; 10_state.md R36). -/
inductive Input where
  /-- A peripheral, or for line 0 the timer, raises an interrupt line (10_state.md R38; 60_exceptions.md R249). -/
  | raiseInterrupt (line : Line)
  /-- The host writes a byte of memory (10_state.md R41). -/
  | poke (addr value : Byte)
  /-- A peripheral writes a byte of memory (20_memory.md R71). -/
  | deviceWrite (addr value : Byte)
  /-- The reset event (70_reset_and_hazards.md R270). -/
  | reset
deriving DecidableEq, Repr

/-- The memory collaborator's array, as address and byte pairs in one canonical form (`Memory.wf` in Ops.lean):
addresses strictly rising and below 256, no entry equal to what an unlisted address reads as. -/
abbrev Memory := List Host.Cell

/-- The machine (10_state.md), the memory beside it (10_state.md section 8), the histories of its outputs
(10_state.md R36; log 10) and the external events still to come (log 9). -/
structure State where
  /-- x[0] .. x[7] (10_state.md R20). -/
  regs : Vector Byte 8
  /-- Program counter (10_state.md R24). -/
  pc : Byte
  /-- Instruction register: the opcode last fetched (10_state.md R26). -/
  ir : Byte
  /-- Flags: EQ bit 0, GT bit 1, LT bit 2, bits 7:3 unused and stable (10_state.md R27). -/
  fl : Byte
  /-- Global interrupt enable (10_state.md R30). -/
  ie : Bool
  /-- Run state (10_state.md R28). -/
  run : RunState
  /-- Halt cause (10_state.md R28). -/
  cause : Cause
  /-- Halt information (10_state.md R28, R42). -/
  info : Byte
  /-- The 256 bytes of memory (20_memory.md R60). -/
  mem : Memory
  /-- The output trace: every `Emit` record, oldest first (10_state.md R39). -/
  trace : List Emission
  /-- Every `Stop` and `Diag` issued, oldest first (10_state.md R40, R42). -/
  signals : List Signal
  /-- Every access at the memory port, oldest first (20_memory.md R66). -/
  bus : List BusAccess
  /-- The MODEL's own field: the external events at the coming tick boundaries, the next boundary first (log 9). -/
  inputs : List (List Input)
deriving DecidableEq, Repr

/-- Why a step can stop with a fault: never. The spec's two fatal conditions halt the core in a state it describes, so
they are next states (60_exceptions.md R230, R233), and no other instruction defines an error (R234). Nothing raises a
fault, so the type has no constructor (log 18); safe. -/
inductive Fault where
deriving DecidableEq, Repr

/-- Why an instruction has no meaning. -/
inductive Refusal where
  /-- Raised by an arm of `exec` whose instruction has no meaning yet; no arm is left. Safe. -/
  | notModelled (mnemonic : String)
  /-- Raised by every instruction with a register operand when that operand byte is above 7, which the spec says the
  model must refuse, not fault and not mask (30_encoding.md R96, D5; log 4). Safe. -/
  | registerOperandAboveSeven (operand : Byte)
deriving DecidableEq, Repr

/-- The state after reset over any memory contents (MEM0): 10_state.md R43. `run`, `cause` and `info` are the spec's
decision D8; the empty histories `signals` and `bus` and the empty `inputs` are the model's (DESIGN CHOICE, log 9,
log 10). -/
def State.resetWith (mem0 : Memory) : State :=
  { regs := #v[0x00#8, 0x00#8, 0x00#8, 0x00#8, 0x00#8, 0x00#8, 0x00#8, Config.spReset]
    pc := Config.pcReset
    ir := 0x00#8
    fl := 0x00#8
    ie := true
    run := .running
    cause := .none
    info := 0x00#8
    mem := mem0
    trace := []
    signals := []
    bus := []
    inputs := [] }

/-- The machine right after reset (10_state.md R43), with nothing listed in memory (DESIGN CHOICE, log 1, unsafe). -/
def State.reset : State := State.resetWith []

end Sys2Proof.Machine
end

