-- ==== Sys2Proof/Machine/Ops.lean ====
section
/-! DEFINITION. The named operations every instruction and every phase of the tick is made of: memory, registers, the
stack primitives, the stop of the core, interrupt entry and the return from it, the interrupt phase, the fetch, the
advance of PC, and the external events. -/

namespace Sys2Proof.Machine

/-! ## Memory (20_memory.md R60 to R65, R76) -/

/-- The canonical form of memory: addresses strictly rising, inside the 256-byte space, and no entry equal to what an
unlisted address reads as. -/
abbrev Memory.wf (m : Memory) : Prop :=
  m.Pairwise (fun c d => c.1 < d.1) ∧ ∀ c ∈ m, c.1 < 256 ∧ c.2 ≠ Config.memoryDefault

/-- The byte at a memory key: its entry, or the default. -/
def Memory.byteAt : Memory → Nat → Byte
  | [], _ => Config.memoryDefault
  | (k, v) :: rest, n => if k = n then v else Memory.byteAt rest n

/-- Drop every entry at a key. -/
def Memory.dropKey : Memory → Nat → Memory
  | [], _ => []
  | (k, v) :: rest, n => if k = n then Memory.dropKey rest n else (k, v) :: Memory.dropKey rest n

/-- Put an entry in front of the first entry with a larger key. -/
def Memory.insertCell : Memory → Nat → Byte → Memory
  | [], n, v => [(n, v)]
  | (k, w) :: rest, n, v => if n < k then (n, v) :: (k, w) :: rest else (k, w) :: Memory.insertCell rest n v

/-- The collaborator's `read(address)`: total on the 256 addresses, no side effect (20_memory.md R61, R65). -/
def Memory.read (m : Memory) (a : Byte) : Byte := m.byteAt a.toNat

/-- The collaborator's `write(address, value)` (20_memory.md R61); writing the default removes the entry. -/
def Memory.write (m : Memory) (a v : Byte) : Memory :=
  if v = Config.memoryDefault then m.dropKey a.toNat else (m.dropKey a.toNat).insertCell a.toNat v

/-! ## Registers and plain fields (10_state.md R20 to R30) -/

/-- `x[r]` (10_state.md R23). -/
def State.reg (s : State) (r : Reg) : Byte := s.regs[r]

/-- `x[r] <- v` (10_state.md R22, R23). -/
def State.setReg (s : State) (r : Reg) (v : Byte) : State := { s with regs := s.regs.set r v }

/-- `pc <- v` (10_state.md R25). -/
def State.setPc (s : State) (v : Byte) : State := { s with pc := v }

/-- `fl <- v` (10_state.md R29). -/
def State.setFl (s : State) (v : Byte) : State := { s with fl := v }

/-- `ie <- v` (10_state.md R30). -/
def State.setIe (s : State) (v : Bool) : State := { s with ie := v }

/-! ## The memory port (20_memory.md R61, R66) -/

/-- `MemRead(a, 1)`: the byte at `a`, and the access in the history. -/
def memRead (a : Byte) (s : State) : Byte × State :=
  (s.mem.read a, { s with bus := s.bus ++ [.read a (s.mem.read a)] })

/-- `MemWrite(a, 1, v)`: the store, and the access in the history. -/
def memWrite (a v : Byte) (s : State) : State :=
  { s with mem := s.mem.write a v, bus := s.bus ++ [.write a v] }

/-! ## The stack primitives (43_stack.md R190, R191, R194) -/

/-- `Push(v)`: decrement SP, then store at the new SP; both wrap modulo 256 (43_stack.md R190, R194). -/
def push (v : Byte) (s : State) : State :=
  memWrite (s.reg spReg - 1) v (s.setReg spReg (s.reg spReg - 1))

/-- `Pop()`: read at SP, then increment SP; the byte stays in memory (43_stack.md R191, R194). -/
def pop (s : State) : Byte × State :=
  ((memRead (s.reg spReg) s).1, (memRead (s.reg spReg) s).2.setReg spReg (s.reg spReg + 1))

/-! ## Output (10_state.md R39) -/

/-- `Emit(kind, v)`: one record at the end of the output trace. -/
def emit (kind : EmitKind) (v : Byte) (s : State) : State := { s with trace := s.trace ++ [⟨kind, v⟩] }

/-! ## Stopping (10_state.md R28, R40, R42; 60_exceptions.md R233) -/

/-- The numeric code of a cause (10_state.md R28; 60_exceptions.md R230; the spec's decision D25, log 8). -/
def causeCode : Cause → Byte
  | .none => 0#8
  | .invalidOpcode => 1#8
  | .divZero => 2#8
  | .hlt => 3#8

/-- The fatal stop `raise Fatal(c, i)`: HALTED, cause and information recorded, `Diag` then `Stop` issued
(60_exceptions.md R233). That nothing later in the tick happens is `endsTick`. -/
def raiseFatal (c : Cause) (i : Byte) (s : State) : State :=
  { s with run := .halted, cause := c, info := i, signals := s.signals ++ [.diag c i, .stop] }

/-- HLT's stop: HALTED, `Stop` issued, no `Diag` (45_data_io_system.md R217). -/
def stopByHalt (s : State) : State :=
  { s with run := .halted, cause := .hlt, info := s.ir, signals := s.signals ++ [.stop] }

/-- A fatal condition ended the tick at the action (40_execution_cycle.md R127); after HLT the tick goes on
(45_data_io_system.md R217). -/
def endsTick (s : State) : Bool := s.run == .halted && s.cause != .hlt

/-! ## Interrupts (60_exceptions.md R235 to R247) -/

/-- `1 << i` as a byte: the bit of line `i` in IM and IS (10_state.md R31, R32). -/
def lineBit (i : Line) : Byte := 1#8 <<< i.val

/-- `RaiseInterrupt(i)`: set bit `i` of IS and nothing else (10_state.md R38). -/
def raiseInterrupt (i : Line) (s : State) : State := s.setReg isReg (s.reg isReg ||| lineBit i)

/-- The eligible lines, `IS & IM` (60_exceptions.md R236). -/
def eligibleLines (s : State) : Byte := s.reg isReg &&& s.reg imReg

/-- Scan bits 0..7 in ascending order for the first set bit (40_execution_cycle.md R121; 60_exceptions.md R238). -/
def lowestLine (pending : Byte) : Option Line :=
  ([0, 1, 2, 3, 4, 5, 6, 7] : List Line).find? (fun i => pending.getLsbD i.val)

/-- The line whose interrupt this tick enters, if any: `ie` gates, then the lowest eligible line wins
(60_exceptions.md R238, R241). -/
def interruptToEnter (s : State) : Option Line := if s.ie then lowestLine (eligibleLines s) else none

/-- Push one register (60_exceptions.md R239). -/
def pushReg (r : Reg) (s : State) : State := push (s.reg r) s

/-- The nine pushes of interrupt entry: PC, FL, then x[0] .. x[6] in ascending order (60_exceptions.md R239). -/
def saveContext (s : State) : State :=
  pushReg 6 (pushReg 5 (pushReg 4 (pushReg 3 (pushReg 2 (pushReg 1 (pushReg 0 (push s.fl (push s.pc s))))))))

/-- The address of line `i`'s vector, `0xF8 + i` (60_exceptions.md R240). -/
def vectorAddress (i : Line) : Byte := Config.vectorBase + BitVec.ofNat 8 i.val

/-- `pc <- MemRead(0xF8 + i, 1)`: the vector is read from memory at the moment of entry (60_exceptions.md R240). -/
def jumpToVector (i : Line) (s : State) : State :=
  (memRead (vectorAddress i) s).2.setPc (memRead (vectorAddress i) s).1

/-- Clear bit `i` of IS (60_exceptions.md R239). -/
def acknowledge (i : Line) (s : State) : State := s.setReg isReg (s.reg isReg &&& ~~~ lineBit i)

/-- `InterruptEntry(i)`: disable recognition, clear the pending bit, save the context, go to the vector
(60_exceptions.md R239). -/
def interruptEntry (i : Line) (s : State) : State :=
  jumpToVector i (saveContext (acknowledge i (s.setIe false)))

/-- `x[r] <- Pop()`. -/
def popReg (r : Reg) (s : State) : State := (pop s).2.setReg r (pop s).1

/-- `fl <- Pop()`, all eight bits (44_interrupt_instructions.md R201; D7). -/
def popFl (s : State) : State := (pop s).2.setFl (pop s).1

/-- `pc <- Pop()` (42_control_flow.md R180; 44_interrupt_instructions.md R201). -/
def popPc (s : State) : State := (pop s).2.setPc (pop s).1

/-- The return from an interrupt: pop x[6] down to x[0], FL, PC, then enable recognition
(44_interrupt_instructions.md R201). -/
def interruptReturn (s : State) : State :=
  (popPc (popFl (popReg 0 (popReg 1 (popReg 2 (popReg 3 (popReg 4 (popReg 5 (popReg 6 s))))))))).setIe true

/-- Step 1 of the tick: at most one interrupt is entered (40_execution_cycle.md R121, R130). -/
def interruptPhase (s : State) : State :=
  match interruptToEnter s with
  | some i => interruptEntry i s
  | none => s

/-! ## Fetch and advance (40_execution_cycle.md R122, R124, R126) -/

/-- Step 2: `ir <- MemRead(pc, 1)` (40_execution_cycle.md R122). -/
def fetchOpcode (s : State) : State := { (memRead s.pc s).2 with ir := (memRead s.pc s).1 }

/-- Step 4: the two bytes after the opcode, operand A first, always both (40_execution_cycle.md R124). -/
def readOperands (s : State) : (Byte × Byte) × State :=
  (((memRead (s.pc + 1) s).1, (memRead (s.pc + 2) (memRead (s.pc + 1) s).2).1),
   (memRead (s.pc + 2) (memRead (s.pc + 1) s).2).2)

/-- Step 6: with SETSPC clear, `pc <- pc + 1 + ir[7:6]`; with SETSPC set, nothing (40_execution_cycle.md R126). -/
def advancePc (s : State) : State :=
  if setsPcBit s.ir then s else s.setPc (s.pc + 1 + operandCountOf s.ir)

/-- What follows the action: step 6, unless a fatal condition ended the tick (40_execution_cycle.md R126, R127). -/
def finishTick (s : State) : State := if endsTick s then s else advancePc s

/-! ## External events between ticks (00_scope.md R3; 10_state.md R37, R38, R41; 70_reset_and_hazards.md R270) -/

/-- A write of memory from outside the core: it touches no core state (10_state.md R41; 20_memory.md R71). -/
def externalWrite (a v : Byte) (s : State) : State := { s with mem := s.mem.write a v }

/-- The reset event: every piece of core state at its reset value, memory left alone (70_reset_and_hazards.md R270).
The events still to come are not the core's and stay (log 11). -/
def resetEvent (s : State) : State := { State.resetWith s.mem with inputs := s.inputs }

/-- The effect of one external event. -/
def applyInput (s : State) : Input → State
  | .raiseInterrupt i => raiseInterrupt i s
  | .poke a v => externalWrite a v s
  | .deviceWrite a v => externalWrite a v s
  | .reset => resetEvent s

/-- The events that land at this tick boundary (00_scope.md R3). -/
def State.dueInputs (s : State) : List Input := s.inputs.headD []

/-- Apply the events of this boundary in order and drop them from the schedule (00_scope.md R3; log 9). -/
def deliverInputs (s : State) : State :=
  s.dueInputs.foldl applyInput { s with inputs := s.inputs.tail }

end Sys2Proof.Machine
end

