-- ==== Sys2Proof/Machine/Operands.lean ====
section
/-! DEFINITION. The operand forms: register index (30_encoding.md R96), second operand of the ALU (41_alu.md R140),
shift amount (41_alu.md R153), effective address (45_data_io_system.md R210). -/

namespace Sys2Proof.Machine

/-- `Reg(b)`: an operand byte in 0..7 names a register, any other names none (30_encoding.md R96). -/
def regOf (b : Byte) : Option Reg := if h : b.toNat < 8 then some ⟨b.toNat, h⟩ else none

/-- An action with one register operand. A byte above 7 is refused, used or not (30_encoding.md R96, D5; log 4). -/
def withReg (a : Byte) (act : Reg → State) : Host.Outcome State Fault Refusal :=
  match regOf a with
  | some d => .next (act d)
  | none => .refused (.registerOperandAboveSeven a)

/-- An action with two register operands, operand A decoded first (30_encoding.md R96, R104). -/
def withRegs (a b : Byte) (act : Reg → Reg → State) : Host.Outcome State Fault Refusal :=
  match regOf a with
  | some d => withReg b (act d)
  | none => .refused (.registerOperandAboveSeven a)

/-- The second operand of a two-operand ALU operation: an immediate if one is supplied, otherwise a register
(41_alu.md R140). No instruction supplies an immediate (R140, D27). -/
inductive AluSource where
  | register (r : Reg)
  | immediate (v : Byte)
deriving DecidableEq, Repr

/-- Operand resolution of the ALU contract (41_alu.md R140). -/
def aluSecondOperand (s : State) : AluSource → Byte
  | .register r => s.reg r
  | .immediate v => v

/-- SHIFT_AMOUNT: the low three bits of the source (41_alu.md R153, R154). For a source of 8 or more this is the spec's
decision D6 (UNVERIFIED, log 5). -/
def shiftAmount (b : Byte) : Nat := b.toNat % 8

/-- The one addressing mode: the register's value as it stands (45_data_io_system.md R210). -/
def effectiveAddress (s : State) (r : Reg) : Byte := s.reg r

end Sys2Proof.Machine
end

