-- ==== Sys2Proof/Machine/Flags.lean ====
section
/-! DEFINITION. The flags register: its three bits (10_state.md R27, R29), CMP's computation of them (41_alu.md R152)
and the six jump conditions that read them (42_control_flow.md R173). -/

namespace Sys2Proof.Machine

/-- The three flags (10_state.md R27). -/
inductive Flag where
  | eq
  | gt
  | lt
deriving DecidableEq, Repr

/-- The bit of FL that holds a flag: EQ 0, GT 1, LT 2 (10_state.md R27). -/
def flagIndex : Flag → Nat
  | .eq => 0
  | .gt => 1
  | .lt => 2

/-- The register-file contract `getFlag(bit)` (10_state.md R29). -/
def getFlag (f : Flag) (fl : Byte) : Bool := fl.getLsbD (flagIndex f)

/-- The register-file contract `setFlag(bit, bool)`: exactly that bit, the others untouched (10_state.md R29). -/
def setFlag (f : Flag) (v : Bool) (fl : Byte) : Byte :=
  if v then fl ||| (1#8 <<< flagIndex f) else fl &&& ~~~ (1#8 <<< flagIndex f)

/-- CMP's flags: EQ, GT and LT of the unsigned operands, bits 7:3 kept (41_alu.md R152). -/
def compareFlags (a b fl : Byte) : Byte :=
  setFlag .lt (decide (a.toNat < b.toNat))
    (setFlag .gt (decide (a.toNat > b.toNat)) (setFlag .eq (decide (a.toNat = b.toNat)) fl))

/-- JEQ: EQ (42_control_flow.md R173). -/
def condJeq (fl : Byte) : Bool := getFlag .eq fl

/-- JNE: not EQ (42_control_flow.md R173). -/
def condJne (fl : Byte) : Bool := !getFlag .eq fl

/-- JGT: GT (42_control_flow.md R173). -/
def condJgt (fl : Byte) : Bool := getFlag .gt fl

/-- JGE: EQ or GT (42_control_flow.md R173). -/
def condJge (fl : Byte) : Bool := getFlag .eq fl || getFlag .gt fl

/-- JLT: LT (42_control_flow.md R173). -/
def condJlt (fl : Byte) : Bool := getFlag .lt fl

/-- JLE: EQ or LT (42_control_flow.md R173). -/
def condJle (fl : Byte) : Bool := getFlag .eq fl || getFlag .lt fl

end Sys2Proof.Machine
end

