-- ==== Sys2Proof/Machine/Alu.lean ====
section
/-! DEFINITION. The fourteen ALU instructions (41_alu.md). Operands are read before anything is written; nothing but the
destination register, or for CMP the flags, changes (R140, R155). -/

namespace Sys2Proof.Machine

/-- A two-operand operation into the destination `Reg(opA)` (41_alu.md R140; 30_encoding.md R104). -/
def aluBinary (f : Byte → Byte → Byte) (a b : Byte) (s : State) : Host.Outcome State Fault Refusal :=
  withRegs a b fun d r => s.setReg d (f (s.reg d) (aluSecondOperand s (.register r)))

/-- A one-operand operation on the destination `Reg(opA)` (41_alu.md R140). -/
def aluUnary (f : Byte → Byte) (a : Byte) (s : State) : Host.Outcome State Fault Refusal :=
  withReg a fun d => s.setReg d (f (s.reg d))

/-- DIV and MOD: a zero second operand is the fatal condition DIV_ZERO and nothing is written
(41_alu.md R148, R149, R157; 60_exceptions.md R232). -/
def aluDivide (f : Byte → Byte → Byte) (a b : Byte) (s : State) : Host.Outcome State Fault Refusal :=
  withRegs a b fun d r =>
    if aluSecondOperand s (.register r) = 0#8 then raiseFatal .divZero s.ir s
    else s.setReg d (f (s.reg d) (aluSecondOperand s (.register r)))

/-- 41_alu.md R141. -/
def execAnd (a b : Byte) (s : State) : Host.Outcome State Fault Refusal := aluBinary (fun x y => x &&& y) a b s

/-- 41_alu.md R142. -/
def execOr (a b : Byte) (s : State) : Host.Outcome State Fault Refusal := aluBinary (fun x y => x ||| y) a b s

/-- 41_alu.md R143. -/
def execXor (a b : Byte) (s : State) : Host.Outcome State Fault Refusal := aluBinary (fun x y => x ^^^ y) a b s

/-- 41_alu.md R144. -/
def execNot (a : Byte) (s : State) : Host.Outcome State Fault Refusal := aluUnary (fun x => ~~~ x) a s

/-- 41_alu.md R145. -/
def execAdd (a b : Byte) (s : State) : Host.Outcome State Fault Refusal := aluBinary (fun x y => x + y) a b s

/-- 41_alu.md R146: the destination is the minuend. -/
def execSub (a b : Byte) (s : State) : Host.Outcome State Fault Refusal := aluBinary (fun x y => x - y) a b s

/-- 41_alu.md R147: the low byte of the product. -/
def execMul (a b : Byte) (s : State) : Host.Outcome State Fault Refusal := aluBinary (fun x y => x * y) a b s

/-- 41_alu.md R148, R157: the unsigned quotient. -/
def execDiv (a b : Byte) (s : State) : Host.Outcome State Fault Refusal := aluDivide (fun x y => x / y) a b s

/-- 41_alu.md R149, R157: the unsigned remainder. -/
def execMod (a b : Byte) (s : State) : Host.Outcome State Fault Refusal := aluDivide (fun x y => x % y) a b s

/-- 41_alu.md R150. -/
def execInc (a : Byte) (s : State) : Host.Outcome State Fault Refusal := aluUnary (fun x => x + 1#8) a s

/-- 41_alu.md R151. -/
def execDec (a : Byte) (s : State) : Host.Outcome State Fault Refusal := aluUnary (fun x => x - 1#8) a s

/-- 41_alu.md R152: no register is written. -/
def execCmp (a b : Byte) (s : State) : Host.Outcome State Fault Refusal :=
  withRegs a b fun d r => s.setFl (compareFlags (s.reg d) (aluSecondOperand s (.register r)) s.fl)

/-- 41_alu.md R153: zeros enter at bit 0. -/
def execShl (a b : Byte) (s : State) : Host.Outcome State Fault Refusal :=
  aluBinary (fun x y => x <<< shiftAmount y) a b s

/-- 41_alu.md R154: logical, zeros enter at bit 7. -/
def execShr (a b : Byte) (s : State) : Host.Outcome State Fault Refusal :=
  aluBinary (fun x y => x >>> shiftAmount y) a b s

end Sys2Proof.Machine
end

