-- ==== Sys2Proof/Machine/Control.lean ====
section
/-! DEFINITION. The control-transfer instructions (42_control_flow.md). Each has SETSPC set, so the value its action
leaves in PC stands (R170); during the action PC holds the address of the opcode byte. -/

namespace Sys2Proof.Machine

/-- The action the six conditional jumps share: the register's value, or past the two-byte jump
(42_control_flow.md R173). The operand byte is refused above 7 whether or not the jump is taken (D5; log 4). -/
def jumpIf (cond : Byte → Bool) (a : Byte) (s : State) : Host.Outcome State Fault Refusal :=
  withReg a fun d => if cond s.fl then s.setPc (s.reg d) else s.setPc (s.pc + 2#8)

/-- 42_control_flow.md R171. -/
def execJmp (a : Byte) (s : State) : Host.Outcome State Fault Refusal := withReg a fun d => s.setPc (s.reg d)

/-- 42_control_flow.md R172: the return address is pushed, then the target is read, after the push (D10; log 6). -/
def execCall (a : Byte) (s : State) : Host.Outcome State Fault Refusal :=
  withReg a fun d => (push (s.pc + 2#8) s).setPc ((push (s.pc + 2#8) s).reg d)

/-- 42_control_flow.md R180. -/
def execRet (s : State) : Host.Outcome State Fault Refusal := .next (popPc s)

/-- 42_control_flow.md R174. -/
def execJeq (a : Byte) (s : State) : Host.Outcome State Fault Refusal := jumpIf condJeq a s

/-- 42_control_flow.md R175. -/
def execJne (a : Byte) (s : State) : Host.Outcome State Fault Refusal := jumpIf condJne a s

/-- 42_control_flow.md R176. -/
def execJgt (a : Byte) (s : State) : Host.Outcome State Fault Refusal := jumpIf condJgt a s

/-- 42_control_flow.md R177. -/
def execJge (a : Byte) (s : State) : Host.Outcome State Fault Refusal := jumpIf condJge a s

/-- 42_control_flow.md R178. -/
def execJlt (a : Byte) (s : State) : Host.Outcome State Fault Refusal := jumpIf condJlt a s

/-- 42_control_flow.md R179. -/
def execJle (a : Byte) (s : State) : Host.Outcome State Fault Refusal := jumpIf condJle a s

end Sys2Proof.Machine
end

