-- ==== Sys2Proof/Machine/Data.lean ====
section
/-! DEFINITION. Data movement, output and system instructions (45_data_io_system.md). -/

namespace Sys2Proof.Machine

/-- 45_data_io_system.md R211: operand A is the destination, operand B holds the address (D4; log 3). -/
def execLd (a b : Byte) (s : State) : Host.Outcome State Fault Refusal :=
  withRegs a b fun d r => (memRead (effectiveAddress s r) s).2.setReg d (memRead (effectiveAddress s r) s).1

/-- 45_data_io_system.md R212: operand A holds the address, operand B is stored (D4; log 3). -/
def execSt (a b : Byte) (s : State) : Host.Outcome State Fault Refusal :=
  withRegs a b fun d r => memWrite (effectiveAddress s d) (s.reg r) s

/-- 45_data_io_system.md R213: the byte as it stands. -/
def execLdi (a imm : Byte) (s : State) : Host.Outcome State Fault Refusal := withReg a fun d => s.setReg d imm

/-- 45_data_io_system.md R214. -/
def execPrn (a : Byte) (s : State) : Host.Outcome State Fault Refusal := withReg a fun d => emit .num (s.reg d) s

/-- 45_data_io_system.md R215. -/
def execPra (a : Byte) (s : State) : Host.Outcome State Fault Refusal := withReg a fun d => emit .chr (s.reg d) s

/-- 45_data_io_system.md R216: no state change. -/
def execNop (s : State) : Host.Outcome State Fault Refusal := .next s

/-- 45_data_io_system.md R217. -/
def execHlt (s : State) : Host.Outcome State Fault Refusal := .next (stopByHalt s)

end Sys2Proof.Machine
end

