-- ==== Sys2Proof/Machine/Stack.lean ====
section
/-! DEFINITION. PUSH and POP (43_stack.md), and the interrupt instructions INT and IRET
(44_interrupt_instructions.md), the other users of register 5, 6 and 7. -/

namespace Sys2Proof.Machine

/-- 43_stack.md R192: the operand is read before the primitive runs (D10; log 6). -/
def execPush (a : Byte) (s : State) : Host.Outcome State Fault Refusal := withReg a fun d => push (s.reg d) s

/-- 43_stack.md R193: the register is written after SP has moved (D10; log 6). -/
def execPop (a : Byte) (s : State) : Host.Outcome State Fault Refusal := withReg a fun d => popReg d s

/-- 44_interrupt_instructions.md R200: IM is ORed with the register's bitmask (D28, C7). -/
def execInt (a : Byte) (s : State) : Host.Outcome State Fault Refusal :=
  withReg a fun d => s.setReg imReg (s.reg imReg ||| s.reg d)

/-- 44_interrupt_instructions.md R201, R202. -/
def execIret (s : State) : Host.Outcome State Fault Refusal := .next (interruptReturn s)

end Sys2Proof.Machine
end

