-- ==== Sys2Proof/Machine/Tick.lean ====
section
/-! DEFINITION. The tick (40_execution_cycle.md R120). -/

namespace Sys2Proof.Machine

/-- Steps 5 and 6: the action, then the advance of PC (40_execution_cycle.md R125 to R127). -/
def execThenAdvance (i : Instr) (s : State) : Host.Outcome State Fault Refusal :=
  match exec i s with
  | .next t => .next (finishTick t)
  | .fault r => .fault r
  | .refused r => .refused r

/-- Steps 2 to 6: fetch, decode, operand read, execute, advance (40_execution_cycle.md R122 to R126). A miss in the
dispatch table is the fatal condition INVALID_OPCODE, before the operand bytes are read (R123). -/
def instructionPhase (s : State) : Host.Outcome State Fault Refusal :=
  match lookupOpcode (fetchOpcode s).ir with
  | none => .next (raiseFatal .invalidOpcode (fetchOpcode s).ir (fetchOpcode s))
  | some row =>
    execThenAdvance
      (row.build (readOperands (fetchOpcode s)).1.1 (readOperands (fetchOpcode s)).1.2)
      (readOperands (fetchOpcode s)).2

/-- One tick: nothing when HALTED (40_execution_cycle.md R129), else the interrupt phase and then the instruction phase,
both in the one tick (R120, D24). -/
def tick (s : State) : Host.Outcome State Fault Refusal :=
  match s.run with
  | .halted => .next s
  | .running => instructionPhase (interruptPhase s)

/-- Store the bytes of a list at rising addresses from `a`, wrapping (30_encoding.md R92, R108). -/
def storeBytes : List Byte → Byte → State → State
  | [], _, s => s
  | v :: rest, a, s => storeBytes rest (a + 1#8) (externalWrite a v s)

/-- Make the next tick fetch at `pc`: the core runs, and no interrupt would be entered and no external event lands first
(log 12). What already holds is left as it is. -/
def readyToFetch (s : State) : State :=
  { s with
    run := .running
    ie := s.ie && (interruptToEnter s).isNone
    inputs := match s.inputs with
      | [] => []
      | _ :: rest => [] :: rest }

end Sys2Proof.Machine
end

