-- ==== Sys2Proof/Machine/Step.lean ====
section
/-! DEFINITION. One step of the machine: the external events of this tick boundary, then one tick. -/

namespace Sys2Proof.Machine

/-- The events due at this boundary land (00_scope.md R3; 10_state.md R37), then the core performs one tick
(40_execution_cycle.md R120). With nothing due it is the tick alone. -/
def step (s : State) : Host.Outcome State Fault Refusal := tick (deliverInputs s)

/-- The state with an instruction stored where the next step fetches: its bytes, and the zero bytes above `nbits`, at
`pc`, `pc + 1`, `pc + 2` (log 12). -/
def State.withFetchWord (s : State) (nbits w : Nat) : State :=
  storeBytes (bytesOfNumber nbits w) s.pc (readyToFetch s)

end Sys2Proof.Machine
end

