-- ==== Sys2Proof/Safety.lean ====
section
/-! DEFINITION. The terms the claims are written in: frames, the accesses and registers each instruction is allowed, and
the invariant of the machine. -/

namespace Sys2Proof.Safety

open Sys2Proof.Machine

/-- The operand byte that names a register (30_encoding.md R95): bits 2:0 the index, bits 7:3 zero. -/
def regByte (r : Reg) : Byte := BitVec.ofNat 8 r.val

/-- The register a well-formed operand byte names; used only where the byte is in 0..7. -/
def regNamed (b : Byte) : Reg := ⟨b.toNat % 8, Nat.mod_lt _ (by decide)⟩

/-- From `s` to `t` nothing changes but the named registers, the named bytes of memory, PC, FL and the access history,
each of which a statement speaks of by itself. -/
structure OnlyChanges (regs : List Reg) (cells : List Byte) (s t : State) : Prop where
  regs_kept : ∀ r, r ∉ regs → t.reg r = s.reg r
  mem_kept : ∀ a, a ∉ cells → t.mem.read a = s.mem.read a
  ir_kept : t.ir = s.ir
  ie_kept : t.ie = s.ie
  run_kept : t.run = s.run
  cause_kept : t.cause = s.cause
  info_kept : t.info = s.info
  trace_kept : t.trace = s.trace
  signals_kept : t.signals = s.signals
  inputs_kept : t.inputs = s.inputs

/-- The whole frame of an instruction that touches registers only: as `OnlyChanges`, and PC, FL and the access history
stay as well. -/
structure OnlyRegistersChange (regs : List Reg) (s t : State) : Prop extends OnlyChanges regs [] s t where
  pc_kept : t.pc = s.pc
  fl_kept : t.fl = s.fl
  bus_kept : t.bus = s.bus

/-- The whole frame of a control transfer that uses no memory: PC alone changes. -/
structure OnlyPcChanges (s t : State) : Prop extends OnlyChanges [] [] s t where
  fl_kept : t.fl = s.fl
  bus_kept : t.bus = s.bus

/-- Apply a function to the next state of an outcome. -/
def mapNext (f : State → State) : Host.Outcome State Fault Refusal → Host.Outcome State Fault Refusal
  | .next t => .next (f t)
  | .fault r => .fault r
  | .refused r => .refused r

/-- The registers an action may write, from the table of 10_state.md section 1. -/
def writtenRegs : Instr → List Reg
  | .add a _ | .sub a _ | .mul a _ | .div a _ | .mod a _ => [regNamed a]
  | .and a _ | .or a _ | .xor a _ | .shl a _ | .shr a _ => [regNamed a]
  | .inc a | .dec a | .not a | .ldi a _ | .ld a _ => [regNamed a]
  | .pop a => [regNamed a, spReg]
  | .push _ | .call _ | .ret => [spReg]
  | .iret => [0, 1, 2, 3, 4, 5, 6, 7]
  | .int _ => [imReg]
  | .cmp _ _ | .st _ _ | .jmp _ | .jeq _ | .jne _ | .jgt _ | .jge _ | .jlt _ | .jle _ => []
  | .prn _ | .pra _ | .nop | .hlt => []

/-- The bytes of memory an action may write: ST at `x[a]`, PUSH and CALL at `SP - 1` (20_memory.md R66). -/
def writtenCells (s : State) : Instr → List Byte
  | .st a _ => [s.reg (regNamed a)]
  | .push _ | .call _ => [s.reg spReg - 1]
  | .add _ _ | .sub _ _ | .mul _ _ | .div _ _ | .mod _ _ | .cmp _ _ => []
  | .and _ _ | .or _ _ | .xor _ _ | .shl _ _ | .shr _ _ | .inc _ | .dec _ | .not _ => []
  | .jmp _ | .jeq _ | .jne _ | .jgt _ | .jge _ | .jlt _ | .jle _ | .ret | .iret => []
  | .int _ | .ld _ _ | .ldi _ _ | .pop _ | .prn _ | .pra _ | .nop | .hlt => []

/-- The read of one byte as the access history records it. -/
def readOf (s : State) (a : Byte) : BusAccess := .read a (s.mem.read a)

/-- The memory accesses of step 5, by instruction (the last row of 20_memory.md R66's table). -/
def actionAccesses (s : State) : Instr → List BusAccess
  | .ld _ b => [readOf s (s.reg (regNamed b))]
  | .st a b => [.write (s.reg (regNamed a)) (s.reg (regNamed b))]
  | .push a => [.write (s.reg spReg - 1) (s.reg (regNamed a))]
  | .call _ => [.write (s.reg spReg - 1) (s.pc + 2)]
  | .pop _ | .ret => [readOf s (s.reg spReg)]
  | .iret =>
    [readOf s (s.reg spReg), readOf s (s.reg spReg + 1), readOf s (s.reg spReg + 2), readOf s (s.reg spReg + 3),
     readOf s (s.reg spReg + 4), readOf s (s.reg spReg + 5), readOf s (s.reg spReg + 6), readOf s (s.reg spReg + 7),
     readOf s (s.reg spReg + 8)]
  | .add _ _ | .sub _ _ | .mul _ _ | .div _ _ | .mod _ _ | .cmp _ _ => []
  | .and _ _ | .or _ _ | .xor _ _ | .shl _ _ | .shr _ _ | .inc _ | .dec _ | .not _ => []
  | .jmp _ | .jeq _ | .jne _ | .jgt _ | .jge _ | .jlt _ | .jle _ => []
  | .int _ | .ldi _ _ | .prn _ | .pra _ | .nop | .hlt => []

/-- The nine addresses of an interrupt frame pushed with SP at `sp` (60_exceptions.md R239). -/
def frameCells (sp : Byte) : List Byte := [sp - 1, sp - 2, sp - 3, sp - 4, sp - 5, sp - 6, sp - 7, sp - 8, sp - 9]

/-- The nine pushes of interrupt entry for line `i`, as the access history records them (60_exceptions.md R239). -/
def entryWrites (i : Line) (s : State) : List BusAccess :=
  [.write (s.reg spReg - 1) s.pc, .write (s.reg spReg - 2) s.fl, .write (s.reg spReg - 3) (s.reg 0),
   .write (s.reg spReg - 4) (s.reg 1), .write (s.reg spReg - 5) (s.reg 2), .write (s.reg spReg - 6) (s.reg 3),
   .write (s.reg spReg - 7) (s.reg 4), .write (s.reg spReg - 8) (s.reg 5),
   .write (s.reg spReg - 9) (s.reg isReg &&& ~~~ lineBit i)]

/-- The state as the action of step 5 finds it, from the state after the interrupt phase: the opcode is in IR, and the
opcode and both operand bytes have been read (40_execution_cycle.md R122, R124). -/
def afterFetch (s : State) : State :=
  { s with
    ir := s.mem.read s.pc
    bus := s.bus ++ [readOf s s.pc, readOf s (s.pc + 1), readOf s (s.pc + 2)] }

/-- What `run`, `cause`, `info`, `ir` and the issued signals say together (10_state.md R28, R40, R42;
60_exceptions.md R230): a running core has issued nothing; a halted one halted for one of the three causes, with its
opcode in `ir` and `info`, one `Stop`, and a `Diag` before it if and only if the cause is fatal. -/
def StopIsRecorded (s : State) : Prop :=
  match s.run with
  | .running => s.cause = .none ∧ s.info = 0#8 ∧ s.signals = []
  | .halted =>
    s.info = s.ir ∧
    ((s.cause = .hlt ∧ s.ir = 0x01#8 ∧ s.signals = [.stop]) ∨
     (s.cause = .invalidOpcode ∧ isOpcode s.ir = false ∧ s.signals = [.diag .invalidOpcode s.ir, .stop]) ∨
     (s.cause = .divZero ∧ (s.ir = 0xA3#8 ∨ s.ir = 0xA4#8) ∧ s.signals = [.diag .divZero s.ir, .stop]))

/-- The invariant of the machine: memory in canonical form, and every stop recorded as the spec says. -/
def Inv (s : State) : Prop := s.mem.wf ∧ StopIsRecorded s

/-- No reset event is scheduled. -/
def NoResetScheduled (s : State) : Prop := ∀ events ∈ s.inputs, Input.reset ∉ events

end Sys2Proof.Safety
end

