-- ==== Sys2Proof/Certificates/Slice0/Obligations.lean ====
section
/-! DEFINITION. The statements for the provers. Each docstring names the rules of spec/ it formalises; where a clause rests
on a decision or an inference the spec marks as its own, the docstring says so and names the log entry. -/

open Sys2Proof Sys2Proof.Machine Sys2Proof.Safety

/-! ## Encoding -/

/-- Decoding the bytes of any well-formed instruction gives it back, with every operand at every value the encoding
admits, and leaves what follows it (30_encoding.md R92, R95, R102). -/
def Obligations.DecodeOfEncodeIsTheInstruction : Prop :=
  ∀ (i : Instr) (rest : List Byte), i.wellFormed = true → decode (encode i ++ rest) = .ok (i, rest)

/-- Whatever the decoder accepts is a well-formed instruction's own encoding, so each byte sequence has one meaning
(30_encoding.md R92, R93, R96). -/
def Obligations.DecodeAcceptsOnlyEncodings : Prop :=
  ∀ (bs : List Byte) (i : Instr) (rest : List Byte),
    decode bs = .ok (i, rest) → i.wellFormed = true ∧ bs = encode i ++ rest

/-- 30_encoding.md R99, of the encoder's map and of the decoder's table alike: (a) the opcode bytes are distinct, (b) bits
7:6 are the operand count of the format, (c) bit 4 is 1 for exactly the ten instructions named, (d) bits 7:6 are never
11. -/
def Obligations.OpcodeMapMeetsItsConstraints : Prop :=
  (∀ i j : Instr, opcodeOf i = opcodeOf j → i.mnemonic = j.mnemonic) ∧
  (∀ i : Instr, (opcodeOf i).toNat / 64 =
    match i.mnemonic.format with | .z => 0 | .r => 1 | .rr => 2 | .ri => 2) ∧
  (∀ i : Instr, (opcodeOf i).getLsbD 4 = true ↔
    i.mnemonic ∈ [.CALL, .JMP, .JEQ, .JNE, .JGT, .JGE, .JLT, .JLE, .RET, .IRET]) ∧
  (∀ i : Instr, (opcodeOf i).toNat / 64 ≠ 3) ∧
  (∀ (op : Byte) (row : OpRow) (a b : Byte), lookupOpcode op = some row → opcodeOf (row.build a b) = op) ∧
  (∀ i : Instr, ∃ row, lookupOpcode (opcodeOf i) = some row)

/-- A first byte that is no instruction's opcode is rejected as illegal, and no other is; every byte of 0xC0 to 0xFF is
such a byte; 222 of the 256 are (30_encoding.md R100, R101). The opcode numbers are the spec's decision D1, D2 (log 2),
and R101 is its inference. -/
def Obligations.BytesOutsideTheMapAreIllegal : Prop :=
  (∀ (op : Byte) (rest : List Byte),
    decode (op :: rest) = .error (.illegalOpcode op) ↔ ∀ i : Instr, opcodeOf i ≠ op) ∧
  (∀ (op : Byte) (rest : List Byte), 0xC0 ≤ op.toNat → decode (op :: rest) = .error (.illegalOpcode op)) ∧
  ((List.range 256).filter fun n => !isOpcode (BitVec.ofNat 8 n)).length = 222

/-- Words written out from the opcode map and the operand layout of 30_encoding.md (R92, R95, R98), one for each family,
decode to the instruction they stand for. The numbers are the spec's decision D1, D2 (log 2); that 0x52 is illegal follows
from D2, and that ADD R0, R8 is rejected is the spec's decision D5 (R96; log 4). -/
def Obligations.SpecWordsDecode : Prop :=
  decode [0xA0#8, 0x00#8, 0x01#8] = .ok (.add 0#8 1#8, []) ∧
  decode [0x69#8, 0x02#8] = .ok (.not 2#8, []) ∧
  decode [0x58#8, 0x03#8] = .ok (.jlt 3#8, []) ∧
  decode [0x11#8] = .ok (.ret, []) ∧
  decode [0x45#8, 0x07#8] = .ok (.push 7#8, []) ∧
  decode [0x42#8, 0x05#8] = .ok (.int 5#8, []) ∧
  decode [0x84#8, 0x02#8, 0x00#8] = .ok (.st 2#8 0#8, []) ∧
  decode [0x82#8, 0x07#8, 0x80#8] = .ok (.ldi 7#8 0x80#8, []) ∧
  decode [0x48#8, 0x06#8] = .ok (.pra 6#8, []) ∧
  decode [0x52#8, 0x00#8] = .error (.illegalOpcode 0x52#8) ∧
  decode [0xA0#8, 0x00#8, 0x08#8] = .error (.registerOperandAboveSeven (.add 0#8 8#8))

/-- Every instruction whose register bytes are in 0..7 completes in every state, and every other is refused, never
faulted and never masked, by `exec` and by the tick (30_encoding.md R96). The refusal is the spec's decision D5
(log 4). -/
def Obligations.ExecCompletesExactlyOnRegisterBytes : Prop :=
  (∀ (i : Instr) (s : State), i.wellFormed = true → ∃ t, exec i s = .next t) ∧
  (∀ (i : Instr) (s : State), i.wellFormed = false →
    ∃ b ∈ i.registerOperands, 8 ≤ b.toNat ∧ exec i s = .refused (.registerOperandAboveSeven b)) ∧
  (∀ (s : State) (row : OpRow), lookupOpcode (s.mem.read s.pc) = some row →
    (row.build (s.mem.read (s.pc + 1)) (s.mem.read (s.pc + 2))).wellFormed = false →
    ∃ b, 8 ≤ b.toNat ∧ instructionPhase s = .refused (.registerOperandAboveSeven b))

/-! ## The tick -/

/-- When the bytes at PC decode to an instruction and no interrupt is entered, a step is that instruction's action, on the
state with the opcode in IR and the three reads made, and then step 6 (40_execution_cycle.md R122 to R126). That no
external event is due at this boundary is the model's way of scheduling them (log 9). -/
def Obligations.StepRunsTheDecodedInstruction : Prop :=
  ∀ (s : State) (i : Instr) (rest : List Byte),
    s.run = .running → s.dueInputs = [] → interruptToEnter s = none →
    decode [s.mem.read s.pc, s.mem.read (s.pc + 1), s.mem.read (s.pc + 2)] = .ok (i, rest) →
    step s = execThenAdvance i (afterFetch { s with inputs := s.inputs.tail })

/-- A tick is the interrupt phase and then the instruction phase, so a tick that enters an interrupt also runs the first
instruction of the service routine; a halted core's tick changes nothing (40_execution_cycle.md R120, R129). The halted
case is the spec's decision D8, the one tick for both phases its reading C2, D24 (log 8, log 19). -/
def Obligations.StepIsInterruptPhaseThenInstructionPhase : Prop :=
  ∀ s : State, s.dueInputs = [] →
    (s.run = .running → interruptToEnter s = none →
      step s = instructionPhase { s with inputs := s.inputs.tail }) ∧
    (∀ i : Line, s.run = .running → interruptToEnter s = some i →
      step s = instructionPhase (interruptEntry i { s with inputs := s.inputs.tail })) ∧
    (s.run = .halted → step s = .next { s with inputs := s.inputs.tail })

/-- Bit 4 is set in exactly the opcodes named (30_encoding.md R94, R99); with bit 4 set, step 6 leaves PC as the action left
it; with bit 4 clear, the action does not write PC, and unless a fatal condition ended the tick, step 6 sets PC to
`(pc + 1 + ir[7:6]) mod 256` and changes nothing else (40_execution_cycle.md R126). That step 6 runs after HLT is the
spec's decision D26, that a fatal condition skips it its D9 (log 8). -/
def Obligations.PcAdvancesByTheOpcodeFields : Prop :=
  (∀ i : Instr, (opcodeOf i).getLsbD 4 = true ↔
    i.mnemonic ∈ [.CALL, .JMP, .JEQ, .JNE, .JGT, .JGE, .JLT, .JLE, .RET, .IRET]) ∧
  ∀ (i : Instr) (u t : State), u.ir = opcodeOf i → exec i u = .next t →
    (u.ir.getLsbD 4 = true → execThenAdvance i u = .next t) ∧
    (u.ir.getLsbD 4 = false → t.pc = u.pc ∧
      (t.run = .running ∨ t.cause = .hlt →
        ∃ v, execThenAdvance i u = .next v ∧ v.pc.toNat = (u.pc.toNat + 1 + u.ir.toNat / 64) % 256 ∧
          v = t.setPc v.pc))

/-- An opcode byte outside the map halts the core at step 3, at every tick of a running core, whatever events landed before
it: IR holds the byte and PC addresses it, the operand bytes are not read, and no register, flag or memory byte changes in
the instruction phase; an interrupt entry of the same tick is not undone (40_execution_cycle.md R123; 60_exceptions.md
R231, R233). The run state, the cause, the information and the `Diag` and `Stop` records are the spec's decisions D8 and
D25 (log 8); `deliverInputs` is the model's way of scheduling events (log 9). -/
def Obligations.InvalidOpcodeHaltsBeforeTheOperandRead : Prop :=
  ∀ s u : State, (deliverInputs s).run = .running → u = interruptPhase (deliverInputs s) →
    isOpcode (u.mem.read u.pc) = false →
    ∃ t, step s = .next t ∧ t.run = .halted ∧ t.cause = .invalidOpcode ∧ t.info = t.ir ∧
      t.ir = u.mem.read u.pc ∧ t.pc = u.pc ∧ (∀ r, t.reg r = u.reg r) ∧ t.fl = u.fl ∧ t.ie = u.ie ∧
      (∀ a, t.mem.read a = u.mem.read a) ∧ t.bus = u.bus ++ [readOf u u.pc] ∧ t.trace = u.trace ∧
      t.signals = u.signals ++ [.diag .invalidOpcode t.ir, .stop]

/-- A tick of a running core, whatever events landed before it, halts it only for the three reasons of the spec, each
recorded with its opcode: an opcode outside the map, HLT, or DIV or MOD with a zero second operand (60_exceptions.md R230,
R234). The cause and the information are the spec's decisions D8 and D25 (log 8); `deliverInputs` is the model's way of
scheduling events (log 9). -/
def Obligations.OnlyThreeCausesStopTheCore : Prop :=
  ∀ s u t : State, (deliverInputs s).run = .running → u = interruptPhase (deliverInputs s) →
    step s = .next t → t.run = .halted →
    t.ir = u.mem.read u.pc ∧ t.info = t.ir ∧
    ((t.cause = .invalidOpcode ∧ isOpcode t.ir = false) ∨
     (t.cause = .hlt ∧ t.ir = opcodeOf .hlt) ∨
     (t.cause = .divZero ∧ ∃ d r : Reg, u.reg r = 0#8 ∧
       (encode (.div (regByte d) (regByte r)) = [t.ir, u.mem.read (u.pc + 1), u.mem.read (u.pc + 2)] ∨
        encode (.mod (regByte d) (regByte r)) = [t.ir, u.mem.read (u.pc + 1), u.mem.read (u.pc + 2)])))

/-- 20_memory.md R66: the accesses of a tick, all of them and in order. With no interrupt entered step 1 makes none; an
entry makes nine writes at `SP-1` down to `SP-9` and one read of the vector; the instruction phase reads the opcode, then
for a valid opcode both bytes after it, then makes the accesses of the instruction; for an invalid opcode it makes no
more. -/
def Obligations.EveryMemoryAccessInOrder : Prop :=
  (∀ s : State, interruptToEnter s = none → (interruptPhase s).bus = s.bus) ∧
  (∀ (i : Line) (s : State), interruptToEnter s = some i → (interruptPhase s).bus = s.bus ++
    [.write (s.reg 7 - 1) s.pc, .write (s.reg 7 - 2) s.fl, .write (s.reg 7 - 3) (s.reg 0),
     .write (s.reg 7 - 4) (s.reg 1), .write (s.reg 7 - 5) (s.reg 2), .write (s.reg 7 - 6) (s.reg 3),
     .write (s.reg 7 - 7) (s.reg 4), .write (s.reg 7 - 8) (s.reg 5),
     .write (s.reg 7 - 9) (s.reg 6 &&& ~~~ (1#8 <<< i.val)),
     readOf (interruptPhase s) (0xF8#8 + BitVec.ofNat 8 i.val)]) ∧
  (∀ u t : State, isOpcode (u.mem.read u.pc) = true → instructionPhase u = .next t →
    ∃ i rest, decode [u.mem.read u.pc, u.mem.read (u.pc + 1), u.mem.read (u.pc + 2)] = .ok (i, rest) ∧
      t.bus = u.bus ++ [readOf u u.pc, readOf u (u.pc + 1), readOf u (u.pc + 2)] ++ actionAccesses u i) ∧
  (∀ u t : State, isOpcode (u.mem.read u.pc) = false → instructionPhase u = .next t →
    t.bus = u.bus ++ [readOf u u.pc])

/-- Instruction fetch sees every store of the core (20_memory.md R70, R74): (a) the byte ST, PUSH or CALL stores where the
next tick fetches is that tick's opcode; (b) a byte interrupt entry pushes is the opcode of the same tick's fetch if the
vector points at it, and (c) of the next tick's if that fetches there and the routine's first instruction has not stored
to it; (d) an ST that overwrites its own bytes still executes with the old ones. Which operand of ST is the address is the
spec's decision D4 (log 3), what PUSH R7 stores and where CALL R7 goes its D10 (log 6), that an entering tick also
executes its D24 (log 19). That no event lands in between is said with the model's schedule (log 9). -/
def Obligations.FetchIsCoherentWithStores : Prop :=
  (∀ (d r : Reg) (i : Instr) (a b : Byte) (s t v : State),
    (i = .st (regByte d) (regByte r) ∧ a = s.reg d ∧ b = s.reg r) ∨
    (i = .push (regByte d) ∧ a = s.reg 7 - 1 ∧ b = s.reg d) ∨
    (i = .call (regByte d) ∧ a = s.reg 7 - 1 ∧ b = s.pc + 2) →
    s.run = .running → execThenAdvance i s = .next t → t.pc = a →
    t.dueInputs = [] → interruptToEnter t = none → step t = .next v → v.ir = b) ∧
  (∀ (i : Line) (a b : Byte) (s t : State), s.run = .running → s.dueInputs = [] → interruptToEnter s = some i →
    BusAccess.write a b ∈ entryWrites i s → (interruptEntry i s).pc = a → step s = .next t → t.ir = b) ∧
  (∀ (i : Line) (a b : Byte) (accesses : List BusAccess) (s t v : State),
    s.run = .running → s.dueInputs = [] → interruptToEnter s = some i → BusAccess.write a b ∈ entryWrites i s →
    step s = .next t → t.bus = (interruptEntry i s).bus ++ accesses → (∀ c, BusAccess.write a c ∉ accesses) →
    t.run = .running → t.dueInputs = [] → interruptToEnter t = none → t.pc = a → step t = .next v → v.ir = b) ∧
  (∀ (d r : Reg) (u : State), u.run = .running →
    [u.mem.read u.pc, u.mem.read (u.pc + 1), u.mem.read (u.pc + 2)] = encode (.st (regByte d) (regByte r)) →
    ∃ t, instructionPhase u = .next t ∧ t.pc = u.pc + 3 ∧
      ∀ a, t.mem.read a = if a = u.reg d then u.reg r else u.mem.read a)

/-! ## Interrupts -/

/-- 40_execution_cycle.md R121: with `ie = 1`, the first set bit of `IS & IM` in ascending order is entered, and only it;
with `ie = 0` or nothing eligible, step 1 does nothing at all. -/
def Obligations.InterruptCheckEntersTheLowestEligibleLine : Prop :=
  (∀ (s : State) (i : Line), s.ie = true → (s.reg 6 &&& s.reg 5).getLsbD i.val = true →
    (∀ j : Line, j < i → (s.reg 6 &&& s.reg 5).getLsbD j.val = false) → interruptPhase s = interruptEntry i s) ∧
  (∀ s : State, s.ie = false ∨ s.reg 6 &&& s.reg 5 = 0#8 → interruptPhase s = s)

/-- 60_exceptions.md R239 and R240: interrupt entry for line `i`, with SP at `S` before it. The nine pushes are made in the
order PC, FL, x[0] to x[6] and leave them at `S-1` down to `S-9`, IS with bit `i` clear, and the vector is read last; SP
is `S-9`; `ie` is 0; PC is the byte memory then holds at `0xF8 + i`; nothing else changes. The tick that enters goes on
with step 2 at that PC. The last clause is the spec's reading D24, C2 (log 19), and that all eight bits of FL are pushed is
its decision D7 (log 7). -/
def Obligations.InterruptEntrySavesTheContextAndVectors : Prop :=
  ∀ (i : Line) (s t : State), t = interruptEntry i s →
    t.mem.read (s.reg 7 - 1) = s.pc ∧ t.mem.read (s.reg 7 - 2) = s.fl ∧
    t.mem.read (s.reg 7 - 3) = s.reg 0 ∧ t.mem.read (s.reg 7 - 4) = s.reg 1 ∧ t.mem.read (s.reg 7 - 5) = s.reg 2 ∧
    t.mem.read (s.reg 7 - 6) = s.reg 3 ∧ t.mem.read (s.reg 7 - 7) = s.reg 4 ∧ t.mem.read (s.reg 7 - 8) = s.reg 5 ∧
    t.mem.read (s.reg 7 - 9) = t.reg 6 ∧
    (∀ k, k < 8 → (t.reg 6).getLsbD k = ((s.reg 6).getLsbD k && k != i.val)) ∧
    t.reg 7 = s.reg 7 - 9 ∧ t.ie = false ∧ t.pc = t.mem.read (0xF8#8 + BitVec.ofNat 8 i.val) ∧ t.fl = s.fl ∧
    OnlyChanges [6, 7] (frameCells (s.reg 7)) (s.setIe false) t ∧
    t.bus = s.bus ++
      [.write (s.reg 7 - 1) s.pc, .write (s.reg 7 - 2) s.fl, .write (s.reg 7 - 3) (s.reg 0),
       .write (s.reg 7 - 4) (s.reg 1), .write (s.reg 7 - 5) (s.reg 2), .write (s.reg 7 - 6) (s.reg 3),
       .write (s.reg 7 - 7) (s.reg 4), .write (s.reg 7 - 8) (s.reg 5), .write (s.reg 7 - 9) (t.reg 6),
       readOf t (0xF8#8 + BitVec.ofNat 8 i.val)] ∧
    (s.run = .running → interruptToEnter s = some i → tick s = instructionPhase t)

/-- IRET pops x[6] down to x[0], then FL, then PC from nine rising addresses, sets `ie`, and changes nothing else
(44_interrupt_instructions.md R201). That all eight bits of FL are popped is the spec's decision D7 (log 7). -/
def Obligations.IretRestoresNineBytes : Prop :=
  ∀ s : State, ∃ t, exec .iret s = .next t ∧
    t.reg 6 = s.mem.read (s.reg 7) ∧ t.reg 5 = s.mem.read (s.reg 7 + 1) ∧ t.reg 4 = s.mem.read (s.reg 7 + 2) ∧
    t.reg 3 = s.mem.read (s.reg 7 + 3) ∧ t.reg 2 = s.mem.read (s.reg 7 + 4) ∧ t.reg 1 = s.mem.read (s.reg 7 + 5) ∧
    t.reg 0 = s.mem.read (s.reg 7 + 6) ∧ t.fl = s.mem.read (s.reg 7 + 7) ∧ t.pc = s.mem.read (s.reg 7 + 8) ∧
    t.reg 7 = s.reg 7 + 9 ∧ t.ie = true ∧ t.bus = s.bus ++ actionAccesses s .iret ∧
    OnlyChanges [0, 1, 2, 3, 4, 5, 6, 7] [] (s.setIe true) t

/-- IRET undoes interrupt entry: whatever the service routine did to registers, flags, IM, IS, `ie` and the rest of memory,
if SP and the nine bytes of the frame are as entry left them, then PC, FL, SP and x[0] to x[5] are again what they were,
IS is what it was with the serviced bit clear (so a line raised meanwhile is lost), and recognition is on
(60_exceptions.md R244 to R247, the spec's inference from R239 and R201). That all eight bits of FL come back is the spec's
decision D7 (log 7). -/
def Obligations.IretUndoesInterruptEntry : Prop :=
  ∀ (i : Line) (s u : State),
    u.reg 7 = (interruptEntry i s).reg 7 →
    (∀ a ∈ frameCells (s.reg 7), u.mem.read a = (interruptEntry i s).mem.read a) →
    ∃ t, exec .iret u = .next t ∧ t.pc = s.pc ∧ t.fl = s.fl ∧ t.ie = true ∧
      (∀ r, r ≠ 6 → t.reg r = s.reg r) ∧
      (∀ k, k < 8 → (t.reg 6).getLsbD k = ((s.reg 6).getLsbD k && k != i.val))

/-- 10_state.md R30: `ie` gates the check; no instruction reads it and only IRET writes it, to 1; interrupt entry clears it
and does not save it; reset sets it. -/
def Obligations.InterruptEnableIsHidden : Prop :=
  (∀ s : State, s.ie = false → interruptPhase s = s) ∧
  (∀ (i : Instr) (s : State) (b : Bool), i ≠ .iret →
    exec i (s.setIe b) = mapNext (fun t => t.setIe b) (exec i s)) ∧
  (∀ (s : State) (b : Bool), exec .iret (s.setIe b) = exec .iret s) ∧
  (∀ s : State, ∃ t, exec .iret s = .next t ∧ t.ie = true) ∧
  (∀ (i : Line) (s : State) (b : Bool),
    interruptEntry i (s.setIe b) = interruptEntry i s ∧ (interruptEntry i s).ie = false) ∧
  (∀ m : Memory, (State.resetWith m).ie = true)

/-- INT ORs the register's bitmask into IM and does nothing else: it raises nothing, and IS, `ie` and the stack stay
(44_interrupt_instructions.md R200). That the register holds a mask is the spec's reading C7, D28 (log 19). -/
def Obligations.IntUnmasksTheLinesOfTheRegister : Prop :=
  ∀ (d : Reg) (s : State), ∃ t, exec (.int (regByte d)) s = .next t ∧
    (∀ k, (t.reg 5).getLsbD k = ((s.reg 5).getLsbD k || (s.reg d).getLsbD k)) ∧ OnlyRegistersChange [5] s t

/-- If INT unmasks a line that is already pending while `ie = 1`, and no lower line is eligible under the new mask, that
line is the one the next tick enters (44_interrupt_instructions.md R200, the spec's inference from R121). That the register
holds a mask is the spec's reading C7, D28 (log 19). -/
def Obligations.UnmaskedPendingLineIsEnteredNext : Prop :=
  ∀ (d : Reg) (i : Line) (s t : State), execThenAdvance (.int (regByte d)) s = .next t → s.ie = true →
    (s.reg 6).getLsbD i.val = true → (s.reg d).getLsbD i.val = true →
    (∀ j : Line, j < i → (s.reg 6 &&& (s.reg 5 ||| s.reg d)).getLsbD j.val = false) → interruptToEnter t = some i

/-- `RaiseInterrupt(n)` sets bit `n` of IS and nothing else, whatever IM, `ie` and `run` are, and raising a pending line
changes nothing (10_state.md R38). That it may land on a halted core is the spec's decision D16. -/
def Obligations.RaiseInterruptSetsOnePendingBit : Prop :=
  ∀ (n : Line) (s : State),
    (∀ k, ((applyInput s (.raiseInterrupt n)).reg 6).getLsbD k = ((s.reg 6).getLsbD k || k == n.val)) ∧
    OnlyRegistersChange [6] s (applyInput s (.raiseInterrupt n)) ∧
    ((s.reg 6).getLsbD n.val = true → applyInput s (.raiseInterrupt n) = s)

/-- A line raised at a tick boundary is entered by the tick that follows it if `ie = 1`, the line is unmasked and no lower
line is eligible (60_exceptions.md R242). The schedule of the raise is the model's (log 9). -/
def Obligations.RaisedLineIsEnteredByTheNextTick : Prop :=
  ∀ (s : State) (n : Line) (rest : List (List Input)), s.run = .running → s.inputs = [.raiseInterrupt n] :: rest →
    s.ie = true → (s.reg 5).getLsbD n.val = true →
    (∀ j : Line, j < n → (s.reg 6 &&& s.reg 5).getLsbD j.val = false) →
    step s = instructionPhase (interruptEntry n (applyInput { s with inputs := rest } (.raiseInterrupt n)))

/-! ## External events, reset, halting -/

/-- The events of a boundary land in order before its tick, and with nothing scheduled a step is the tick alone
(00_scope.md R3; 10_state.md R37). Holding the schedule in the state is the model's (log 9). -/
def Obligations.ExternalEventsLandBeforeTheTick : Prop :=
  (∀ (s : State) (events : List Input) (rest : List (List Input)), s.inputs = events :: rest →
    step s = tick (events.foldl applyInput { s with inputs := rest })) ∧
  (∀ s : State, s.inputs = [] → step s = tick s)

/-- `Poke(a, v)` is a write of `v` at `a` on behalf of the host, between ticks, and touches no core state (10_state.md R41).
That it lands through the schedule, before the tick of its boundary, is the model's choice (log 9). -/
def Obligations.PokeWritesOneByteOnly : Prop :=
  (∀ (s : State) (a v b : Byte),
    (applyInput s (.poke a v)).mem.read b = (if b = a then v else s.mem.read b) ∧
    { applyInput s (.poke a v) with mem := s.mem } = s) ∧
  (∀ (s : State) (a v : Byte) (rest : List (List Input)), s.inputs = [.poke a v] :: rest →
    step s = tick (applyInput { s with inputs := rest } (.poke a v)))

/-- Reset, at start and as an event from any state: x[0] to x[6] are 0, SP is 0xF4, PC, IR and FL are 0, `ie` is 1, the
output trace is empty, and memory is left alone (10_state.md R43; 70_reset_and_hazards.md R270, R271). `run`, `cause` and
`info` are the spec's decision D8, the event its D14, memory its parameter MEM0, D15 (log 1, log 8, log 11). -/
def Obligations.ResetGivesTheSpecsValues : Prop :=
  ∀ (m : Memory) (s t : State), t = State.resetWith m ∨ (t = applyInput s .reset ∧ m = s.mem) →
    (∀ r, t.reg r = if r = 7 then 0xF4#8 else 0x00#8) ∧ t.pc = 0x00#8 ∧ t.ir = 0x00#8 ∧ t.fl = 0x00#8 ∧
    t.ie = true ∧ t.run = .running ∧ t.cause = .none ∧ t.info = 0x00#8 ∧ t.trace = [] ∧ t.mem = m ∧
    interruptToEnter t = none

/-- A halted core stays halted through any number of steps and any external events but a reset: only memory, at the
addresses that external writes of these boundaries name, and IS, through raises that only add bits, can change
(60_exceptions.md R252, 40_execution_cycle.md R129, both the spec's decision D8, D16; log 8). The boundaries are those of
the model's schedule (log 9). -/
def Obligations.HaltedCoreStaysHaltedUntilReset : Prop :=
  ∀ (n : Nat) (s : State), s.run = .halted → NoResetScheduled s →
    ∃ t : State, Sys2Proof.core.run n s = .next t ∧ t.run = .halted ∧ t.cause = s.cause ∧ t.info = s.info ∧
      t.pc = s.pc ∧ t.ir = s.ir ∧ t.fl = s.fl ∧ t.ie = s.ie ∧ (∀ r, r ≠ 6 → t.reg r = s.reg r) ∧
      (∀ k, (s.reg 6).getLsbD k = true → (t.reg 6).getLsbD k = true) ∧
      (∀ a, (∀ events ∈ s.inputs.take n, ∀ v, Input.poke a v ∉ events ∧ Input.deviceWrite a v ∉ events) →
        t.mem.read a = s.mem.read a) ∧
      t.trace = s.trace ∧ t.signals = s.signals ∧ t.bus = s.bus

/-- HLT stops the core without error: HALTED, `Stop` and no `Diag`, nothing else changed by the action; its tick completes,
so PC ends one past the HLT byte (45_data_io_system.md R217). The run state, cause and information are the spec's
decisions D8 and D25, the advance its D26 (log 8). -/
def Obligations.HltStopsAfterItsOwnTick : Prop :=
  ∀ s : State, ∃ t, exec .hlt s = .next t ∧ t.run = .halted ∧ t.cause = .hlt ∧ t.info = s.ir ∧
    t.signals = s.signals ++ [.stop] ∧
    { t with run := s.run, cause := s.cause, info := s.info, signals := s.signals } = s ∧
    (s.ir = opcodeOf .hlt → ∃ v, execThenAdvance .hlt s = .next v ∧ v.pc.toNat = (s.pc.toNat + 1) % 256 ∧
      v = t.setPc v.pc)

/-- 45_data_io_system.md R216: NOP's action changes nothing, and step 6 advances PC by 1. -/
def Obligations.NopOnlyAdvancesPc : Prop :=
  ∀ s : State, exec .nop s = .next s ∧
    (s.run = .running → s.ir = opcodeOf .nop → ∃ v, execThenAdvance .nop s = .next v ∧
      v.pc.toNat = (s.pc.toNat + 1) % 256 ∧ v = s.setPc v.pc)

/-! ## The frame of every instruction -/

/-- Every instruction writes only the registers the table of 10_state.md section 1 gives it, stores only where 20_memory.md
R66 says, never writes IR or the schedule, emits only if it is PRN or PRA, writes `ie` only if it is IRET, and stops the
core only if it is HLT, DIV or MOD (44_interrupt_instructions.md R202; 60_exceptions.md R234). -/
def Obligations.EveryInstructionKeepsItsFrame : Prop :=
  ∀ (i : Instr) (s t : State), exec i s = .next t →
    (∀ r, r ∉ writtenRegs i → t.reg r = s.reg r) ∧
    (∀ a, a ∉ writtenCells s i → t.mem.read a = s.mem.read a) ∧
    t.ir = s.ir ∧ t.inputs = s.inputs ∧
    (i.mnemonic ∉ [.PRN, .PRA] → t.trace = s.trace) ∧
    (i.mnemonic ≠ .IRET → t.ie = s.ie) ∧
    (i.mnemonic ∉ [.HLT, .DIV, .MOD] →
      t.run = s.run ∧ t.cause = s.cause ∧ t.info = s.info ∧ t.signals = s.signals)

/-- FL is written by CMP in bits 2:0 only, by IRET with the popped byte, and by reset;
it is read by the six conditional jumps, which leave it, and pushed by interrupt entry; every other instruction neither
reads nor writes it, so no arithmetic, logic or shift instruction changes a flag; `setFlag` touches exactly its bit
(10_state.md R29; 41_alu.md R155). That IRET loads and entry pushes all eight bits is the spec's decision D7 (R27;
log 7). -/
def Obligations.FlagsBelongToCmpIretAndTheJumps : Prop :=
  (∀ (i : Instr) (s : State) (v : Byte),
    i.mnemonic ∉ [.CMP, .IRET, .JEQ, .JNE, .JGT, .JGE, .JLT, .JLE] →
    exec i (s.setFl v) = mapNext (fun t => t.setFl v) (exec i s)) ∧
  (∀ (i : Instr) (s t : State), i.mnemonic ∈ [.JEQ, .JNE, .JGT, .JGE, .JLT, .JLE] → exec i s = .next t →
    t.fl = s.fl) ∧
  (∀ (d r : Reg) (s : State), ∃ t, exec (.cmp (regByte d) (regByte r)) s = .next t ∧
    ∀ k, 3 ≤ k → t.fl.getLsbD k = s.fl.getLsbD k) ∧
  (∀ s : State, ∃ t, exec .iret s = .next t ∧ t.fl = s.mem.read (s.reg 7 + 7)) ∧
  (∀ m : Memory, (State.resetWith m).fl = 0x00#8) ∧
  (∀ (i : Line) (s : State), (interruptEntry i s).mem.read (s.reg 7 - 2) = s.fl) ∧
  (∀ (f g : Flag) (b : Bool) (fl : Byte), getFlag f (setFlag f b fl) = b ∧
    (g ≠ f → getFlag g (setFlag f b fl) = getFlag g fl) ∧
    ∀ k, 3 ≤ k → (setFlag f b fl).getLsbD k = fl.getLsbD k)

/-! ## The ALU -/

/-- 41_alu.md R141, R142, R143, R144: AND, OR, XOR bit by bit into the destination, NOT the 8-bit complement; nothing else
changes. -/
def Obligations.LogicInstructionsWorkBitByBit : Prop :=
  ∀ (d r : Reg) (s : State),
    (∃ t, exec (.and (regByte d) (regByte r)) s = .next t ∧ OnlyRegistersChange [d] s t ∧
      ∀ k, (t.reg d).getLsbD k = ((s.reg d).getLsbD k && (s.reg r).getLsbD k)) ∧
    (∃ t, exec (.or (regByte d) (regByte r)) s = .next t ∧ OnlyRegistersChange [d] s t ∧
      ∀ k, (t.reg d).getLsbD k = ((s.reg d).getLsbD k || (s.reg r).getLsbD k)) ∧
    (∃ t, exec (.xor (regByte d) (regByte r)) s = .next t ∧ OnlyRegistersChange [d] s t ∧
      ∀ k, (t.reg d).getLsbD k = ((s.reg d).getLsbD k ^^ (s.reg r).getLsbD k)) ∧
    (∃ t, exec (.not (regByte d)) s = .next t ∧ OnlyRegistersChange [d] s t ∧
      (t.reg d).toNat = 255 - (s.reg d).toNat)

/-- 41_alu.md R145, R146, R147, R150, R151: sum, difference (destination minus source), product, increment and decrement of
the unsigned values, modulo 256, into the destination; nothing else changes. -/
def Obligations.ArithmeticInstructionsWrapModulo256 : Prop :=
  ∀ (d r : Reg) (s : State),
    (∃ t, exec (.add (regByte d) (regByte r)) s = .next t ∧ OnlyRegistersChange [d] s t ∧
      (t.reg d).toNat = ((s.reg d).toNat + (s.reg r).toNat) % 256) ∧
    (∃ t, exec (.sub (regByte d) (regByte r)) s = .next t ∧ OnlyRegistersChange [d] s t ∧
      ((t.reg d).toNat : Int) = (((s.reg d).toNat : Int) - ((s.reg r).toNat : Int)) % 256) ∧
    (∃ t, exec (.mul (regByte d) (regByte r)) s = .next t ∧ OnlyRegistersChange [d] s t ∧
      (t.reg d).toNat = ((s.reg d).toNat * (s.reg r).toNat) % 256) ∧
    (∃ t, exec (.inc (regByte d)) s = .next t ∧ OnlyRegistersChange [d] s t ∧
      (t.reg d).toNat = ((s.reg d).toNat + 1) % 256) ∧
    (∃ t, exec (.dec (regByte d)) s = .next t ∧ OnlyRegistersChange [d] s t ∧
      ((t.reg d).toNat : Int) = (((s.reg d).toNat : Int) - 1) % 256)

/-- With a non-zero second operand DIV writes the floor quotient and MOD the remainder of the unsigned operands, and
nothing else changes (41_alu.md R148, R149, R157). Unsigned floor division is the spec's decision D11. -/
def Obligations.DivAndModDivideUnsigned : Prop :=
  ∀ (d r : Reg) (s : State), s.reg r ≠ 0#8 →
    (∃ t, exec (.div (regByte d) (regByte r)) s = .next t ∧ OnlyRegistersChange [d] s t ∧
      (t.reg d).toNat = (s.reg d).toNat / (s.reg r).toNat) ∧
    (∃ t, exec (.mod (regByte d) (regByte r)) s = .next t ∧ OnlyRegistersChange [d] s t ∧
      (t.reg d).toNat = (s.reg d).toNat % (s.reg r).toNat)

/-- With a zero second operand DIV and MOD halt the core: the destination, FL, memory and everything else but the stop
records stay, and step 6 is not performed, so PC still addresses the instruction (41_alu.md R148, R149;
60_exceptions.md R232, R233; 40_execution_cycle.md R127). PC, the run state, cause, information and records are the
spec's decisions D8, D9, D25 (log 8). -/
def Obligations.DivideByZeroHaltsAndWritesNothing : Prop :=
  ∀ (d r : Reg) (s : State) (i : Instr), s.reg r = 0#8 →
    i = .div (regByte d) (regByte r) ∨ i = .mod (regByte d) (regByte r) →
    ∃ t, exec i s = .next t ∧ execThenAdvance i s = .next t ∧
      t.run = .halted ∧ t.cause = .divZero ∧ t.info = s.ir ∧
      t.signals = s.signals ++ [.diag .divZero s.ir, .stop] ∧
      { t with run := s.run, cause := s.cause, info := s.info, signals := s.signals } = s

/-- 41_alu.md R152: EQ, GT and LT are the unsigned comparison of the two registers, bits 7:3 of FL stay, and nothing else
changes. -/
def Obligations.CmpSetsTheThreeFlags : Prop :=
  ∀ (d r : Reg) (s : State), ∃ t, exec (.cmp (regByte d) (regByte r)) s = .next t ∧
    t.fl.getLsbD 0 = decide ((s.reg d).toNat = (s.reg r).toNat) ∧
    t.fl.getLsbD 1 = decide ((s.reg d).toNat > (s.reg r).toNat) ∧
    t.fl.getLsbD 2 = decide ((s.reg d).toNat < (s.reg r).toNat) ∧
    (∀ k, 3 ≤ k → t.fl.getLsbD k = s.fl.getLsbD k) ∧
    OnlyChanges [] [] s t ∧ t.pc = s.pc ∧ t.bus = s.bus

/-- SHL and SHR shift the destination by the source modulo 8, zeros entering, and change nothing else (41_alu.md R153,
R154). For a source of 8 or more the amount is the spec's decision D6 (log 5). -/
def Obligations.ShiftsUseTheLowThreeBits : Prop :=
  ∀ (d r : Reg) (s : State),
    (∃ t, exec (.shl (regByte d) (regByte r)) s = .next t ∧ OnlyRegistersChange [d] s t ∧
      (t.reg d).toNat = ((s.reg d).toNat * 2 ^ ((s.reg r).toNat % 8)) % 256) ∧
    (∃ t, exec (.shr (regByte d) (regByte r)) s = .next t ∧ OnlyRegistersChange [d] s t ∧
      (t.reg d).toNat = (s.reg d).toNat / 2 ^ ((s.reg r).toNat % 8))

/-! ## Control transfer -/

/-- 42_control_flow.md R171 and R173 to R179: JMP goes to the register's value; each conditional jump does so when its
condition on FL holds and else goes to `pc + 2`; nothing but PC changes. -/
def Obligations.JumpsFollowTheirConditions : Prop :=
  ∀ (d : Reg) (s : State),
    (∃ t, exec (.jmp (regByte d)) s = .next t ∧ OnlyPcChanges s t ∧ t.pc = s.reg d) ∧
    (∃ t, exec (.jeq (regByte d)) s = .next t ∧ OnlyPcChanges s t ∧
      t.pc.toNat = if s.fl.getLsbD 0 then (s.reg d).toNat else (s.pc.toNat + 2) % 256) ∧
    (∃ t, exec (.jne (regByte d)) s = .next t ∧ OnlyPcChanges s t ∧
      t.pc.toNat = if s.fl.getLsbD 0 then (s.pc.toNat + 2) % 256 else (s.reg d).toNat) ∧
    (∃ t, exec (.jgt (regByte d)) s = .next t ∧ OnlyPcChanges s t ∧
      t.pc.toNat = if s.fl.getLsbD 1 then (s.reg d).toNat else (s.pc.toNat + 2) % 256) ∧
    (∃ t, exec (.jge (regByte d)) s = .next t ∧ OnlyPcChanges s t ∧
      t.pc.toNat = if s.fl.getLsbD 0 ∨ s.fl.getLsbD 1 then (s.reg d).toNat else (s.pc.toNat + 2) % 256) ∧
    (∃ t, exec (.jlt (regByte d)) s = .next t ∧ OnlyPcChanges s t ∧
      t.pc.toNat = if s.fl.getLsbD 2 then (s.reg d).toNat else (s.pc.toNat + 2) % 256) ∧
    (∃ t, exec (.jle (regByte d)) s = .next t ∧ OnlyPcChanges s t ∧
      t.pc.toNat = if s.fl.getLsbD 0 ∨ s.fl.getLsbD 2 then (s.reg d).toNat else (s.pc.toNat + 2) % 256)

/-- CALL stores `(pc + 2) mod 256` one below SP, moves SP there and jumps to the register's value
(42_control_flow.md R172). That CALL R7 jumps to the new SP is the spec's decision D10 (log 6). -/
def Obligations.CallPushesTheReturnAddressAndJumps : Prop :=
  ∀ (d : Reg) (s : State), ∃ t, exec (.call (regByte d)) s = .next t ∧
    (t.mem.read (s.reg 7 - 1)).toNat = (s.pc.toNat + 2) % 256 ∧ t.reg 7 = s.reg 7 - 1 ∧
    t.pc = (if d = 7 then s.reg 7 - 1 else s.reg d) ∧
    OnlyChanges [7] [s.reg 7 - 1] s t ∧ t.fl = s.fl ∧ t.bus = s.bus ++ [.write (s.reg 7 - 1) (s.pc + 2)]

/-- 42_control_flow.md R180: RET pops the top of the stack into PC. -/
def Obligations.RetPopsPc : Prop :=
  ∀ s : State, ∃ t, exec .ret s = .next t ∧ t.pc = s.mem.read (s.reg 7) ∧
    (t.reg 7).toNat = ((s.reg 7).toNat + 1) % 256 ∧ OnlyChanges [7] [] s t ∧ t.fl = s.fl ∧
    t.bus = s.bus ++ [readOf s (s.reg 7)]

/-- RET returns to the call site plus 2 and restores SP, whatever ran between, if SP and the stacked byte are as CALL left
them (42_control_flow.md R182, the spec's inference from R172 and R180). -/
def Obligations.RetReturnsBehindTheCall : Prop :=
  ∀ (d : Reg) (s t u : State), exec (.call (regByte d)) s = .next t →
    u.reg 7 = t.reg 7 → u.mem.read (t.reg 7) = t.mem.read (t.reg 7) →
    ∃ v, exec .ret u = .next v ∧ v.pc.toNat = (s.pc.toNat + 2) % 256 ∧ v.reg 7 = s.reg 7

/-! ## The stack -/

/-- 43_stack.md R190, R191, R194: `Push` decrements SP and stores at the new SP, `Pop` reads at SP and increments it, both
modulo 256 with no bounds check, at 0x00 and 0xFF too; nothing else changes. -/
def Obligations.PushAndPopPrimitives : Prop :=
  ∀ (v : Byte) (s : State),
    ((push v s).reg 7).toNat = ((s.reg 7).toNat + 255) % 256 ∧
    (push v s).mem.read ((push v s).reg 7) = v ∧
    OnlyChanges [7] [(push v s).reg 7] s (push v s) ∧ (push v s).pc = s.pc ∧ (push v s).fl = s.fl ∧
    (pop s).1 = s.mem.read (s.reg 7) ∧ ((pop s).2.reg 7).toNat = ((s.reg 7).toNat + 1) % 256 ∧
    OnlyChanges [7] [] s (pop s).2 ∧ (pop s).2.pc = s.pc ∧ (pop s).2.fl = s.fl ∧
    (s.reg 7 = 0x00#8 → (push v s).mem.read 0xFF#8 = v ∧ (push v s).reg 7 = 0xFF#8) ∧
    (s.reg 7 = 0xFF#8 → (pop s).1 = s.mem.read 0xFF#8 ∧ (pop s).2.reg 7 = 0x00#8)

/-- PUSH stores the register's value one below SP and moves SP there (43_stack.md R192). That PUSH R7 stores the old SP is
the spec's decision D10 (log 6). -/
def Obligations.PushStoresTheRegister : Prop :=
  ∀ (d : Reg) (s : State), ∃ t, exec (.push (regByte d)) s = .next t ∧
    t.mem.read (s.reg 7 - 1) = s.reg d ∧ t.reg 7 = s.reg 7 - 1 ∧ OnlyChanges [7] [s.reg 7 - 1] s t ∧
    t.pc = s.pc ∧ t.fl = s.fl ∧ t.bus = s.bus ++ [.write (s.reg 7 - 1) (s.reg d)]

/-- POP loads the register with the byte at SP and moves SP up (43_stack.md R193). That POP R7 ends with the popped byte
in SP is the spec's decision D10 (log 6). -/
def Obligations.PopLoadsTheRegister : Prop :=
  ∀ (d : Reg) (s : State), ∃ t, exec (.pop (regByte d)) s = .next t ∧
    t.reg d = s.mem.read (s.reg 7) ∧ (d ≠ 7 → t.reg 7 = s.reg 7 + 1) ∧ OnlyChanges [d, 7] [] s t ∧
    t.pc = s.pc ∧ t.fl = s.fl ∧ t.bus = s.bus ++ [readOf s (s.reg 7)]

/-- PUSH then POP of one register, R7 included, leaves every register, SP too, as it was (43_stack.md section 2, the
spec's inference; for R7 under D10, log 6). -/
def Obligations.PopUndoesPush : Prop :=
  ∀ (d : Reg) (s t : State), exec (.push (regByte d)) s = .next t →
    ∃ u, exec (.pop (regByte d)) t = .next u ∧ (∀ r, u.reg r = s.reg r) ∧ u.pc = s.pc ∧ u.fl = s.fl

/-! ## Data, output, memory -/

/-- LD loads the destination from the byte at the address in the second register; ST stores the second register at the
address in the first; nothing else changes (45_data_io_system.md R211, R212). The binding of the operands is the spec's
decision D4 (log 3). -/
def Obligations.LdAndStMoveOneByte : Prop :=
  ∀ (d r : Reg) (s : State),
    (∃ t, exec (.ld (regByte d) (regByte r)) s = .next t ∧ t.reg d = s.mem.read (s.reg r) ∧
      OnlyChanges [d] [] s t ∧ t.pc = s.pc ∧ t.fl = s.fl ∧ t.bus = s.bus ++ [readOf s (s.reg r)]) ∧
    (∃ t, exec (.st (regByte d) (regByte r)) s = .next t ∧ t.mem.read (s.reg d) = s.reg r ∧
      OnlyChanges [] [s.reg d] s t ∧ t.pc = s.pc ∧ t.fl = s.fl ∧ t.bus = s.bus ++ [.write (s.reg d) (s.reg r)])

/-- 45_data_io_system.md R213: LDI loads the immediate byte as it stands, 0 to 255; nothing else changes. -/
def Obligations.LdiLoadsTheImmediate : Prop :=
  ∀ (d : Reg) (imm : Byte) (s : State), ∃ t, exec (.ldi (regByte d) imm) s = .next t ∧
    t.reg d = imm ∧ OnlyRegistersChange [d] s t

/-- PRN appends one number record and PRA one character record with the register's value to the output trace, and nothing
else changes (45_data_io_system.md R214, R215; 10_state.md R39). The typed record is the spec's decision D13 (log 17). -/
def Obligations.PrnAndPraEmitOneRecord : Prop :=
  ∀ (d : Reg) (s : State),
    (∃ t, exec (.prn (regByte d)) s = .next t ∧ t.trace = s.trace ++ [⟨.num, s.reg d⟩] ∧
      { t with trace := s.trace } = s) ∧
    (∃ t, exec (.pra (regByte d)) s = .next t ∧ t.trace = s.trace ++ [⟨.chr, s.reg d⟩] ∧
      { t with trace := s.trace } = s)

/-- 20_memory.md R65: a read returns the last value written to that address, by the core, by `Poke` or by a peripheral, or
its MEM0 value, and has no side effect on the machine. -/
def Obligations.MemoryIsAPlainArray : Prop :=
  (∀ (a v b : Byte) (s : State), (memWrite a v s).mem.read b = if b = a then v else s.mem.read b) ∧
  (∀ (a v b : Byte) (s : State),
    (applyInput s (.poke a v)).mem.read b = (if b = a then v else s.mem.read b) ∧
    (applyInput s (.deviceWrite a v)).mem.read b = if b = a then v else s.mem.read b) ∧
  (∀ (m : Memory) (b : Byte), (State.resetWith m).mem.read b = m.read b) ∧
  (∀ (a : Byte) (s : State), (memRead a s).1 = s.mem.read a ∧ { (memRead a s).2 with bus := s.bus } = s)

/-! ## Invariants, and the placing of an instruction -/

/-- The state after reset, over any canonical memory, meets the invariant (10_state.md R43). That `run`, `cause` and `info`
start as RUNNING, NONE and 0 is the spec's decision D8 (log 8); that the history of signals starts empty is the model's
choice (log 10), and so are the canonical form and what the memory of `State.reset` reads as (log 1). -/
def Obligations.ResetMeetsTheInvariant : Prop :=
  Inv State.reset ∧ ∀ m : Memory, m.wf → Inv (State.resetWith m)

/-- Every step keeps the invariant, from every state that meets it and under every schedule of external events: memory
keeps its canonical form, a running core has issued no `Stop`, and a halted one has issued exactly one, with a `Diag`
exactly when the cause is fatal, and holds its opcode in IR and in the information byte (10_state.md R28, R40, R42;
60_exceptions.md R230, R233; the run state, cause and information are the spec's decisions D8 and D25, log 8). Under a
Reset event, the spec's decision D14, this holds because the model empties the history of signals with it (log 10,
log 11); the canonical form of memory and the schedule are the model's (log 1, log 9). -/
def Obligations.StepKeepsTheInvariant : Prop :=
  ∀ s t : State, Inv s → step s = .next t → Inv t

/-- `withFetchWord` does what it is for (log 12): whatever the state was, the next step runs exactly the instruction the
decoder reads from the word, at the same PC, with the same registers and flags, and no byte of memory outside the three
fetched is different. -/
def Obligations.WithFetchWordRunsTheInstruction : Prop :=
  ∀ (s : State) (nbits w : Nat) (i : Instr), decodeTableWord nbits w = some i →
    ∃ u, step (s.withFetchWord nbits w) = execThenAdvance i u ∧ u.run = .running ∧ u.ir = opcodeOf i ∧
      u.pc = s.pc ∧ u.fl = s.fl ∧ (∀ r, u.reg r = s.reg r) ∧
      (∀ a, a ∉ [s.pc, s.pc + 1, s.pc + 2] → u.mem.read a = s.mem.read a)
end

