-- ==== Sys2Proof/Laws/Decode.lean ====
section
/-! SUPPORT. What the dispatch table and the encoder say of each other: one lemma for a row found, one for the row of an
instruction. -/

namespace Sys2Proof

/-- Every row builds instructions of its own opcode, and its operands are the operand bytes the opcode counts. -/
theorem row_builds_its_opcode : ∀ row ∈ opTable, ∀ a b : Byte,
    opcodeOf (row.build a b) = row.opcode ∧
    operandBytes (row.build a b) = [a, b].take (operandCountOf row.opcode).toNat := by
  simp only [opTable, opTableZ, opTableR, opTableJump, opTableData, opTableAlu, List.cons_append, List.nil_append,
    List.forall_mem_cons, List.not_mem_nil, false_implies, implies_true, and_true]
  and_intros <;> exact fun _ _ => ⟨rfl, rfl⟩

/-- A hit of the dispatch table builds instructions of the byte that was looked up. -/
theorem lookupOpcode_hit {op : Byte} {row : OpRow} (h : lookupOpcode op = some row) (a b : Byte) :
    opcodeOf (row.build a b) = op ∧ operandBytes (row.build a b) = [a, b].take (operandCountOf op).toNat := by
  have hop : row.opcode = op := by simpa using List.find?_some h
  exact hop ▸ row_builds_its_opcode row (List.mem_of_find?_eq_some h) a b

/-- The opcode of an instruction is a hit, and its row rebuilds the instruction from its own operand bytes, whatever
follows them. -/
theorem lookupOpcode_opcodeOf (i : Instr) (rest : List Byte) : ∃ row,
    lookupOpcode (opcodeOf i) = some row ∧
    row.build ((operandBytes i ++ rest).getD 0 0#8) ((operandBytes i ++ rest).getD 1 0#8) = i := by
  cases i <;> exact ⟨_, rfl, rfl⟩

/-- The opcode counts the operand bytes. -/
theorem operandBytes_length (i : Instr) : (operandBytes i).length = (operandCountOf (opcodeOf i)).toNat := by
  cases i <;> simp [operandBytes, opcodeOf, operandCountOf]

end Sys2Proof
end

