-- ==== Sys2Proof/Laws/State.lean ====
section
/-! SUPPORT. One lemma per field per update, true by rfl; no later proof unfolds a record update. -/

namespace Sys2Proof.Machine

variable (s : State) (r q : Reg) (a v : Byte) (b : Bool) (k : EmitKind) (c : Cause)

/-! ### setReg -/

@[simp] theorem setReg_pc : (s.setReg r v).pc = s.pc := rfl
@[simp] theorem setReg_ir : (s.setReg r v).ir = s.ir := rfl
@[simp] theorem setReg_fl : (s.setReg r v).fl = s.fl := rfl
@[simp] theorem setReg_ie : (s.setReg r v).ie = s.ie := rfl
@[simp] theorem setReg_run : (s.setReg r v).run = s.run := rfl
@[simp] theorem setReg_cause : (s.setReg r v).cause = s.cause := rfl
@[simp] theorem setReg_info : (s.setReg r v).info = s.info := rfl
@[simp] theorem setReg_mem : (s.setReg r v).mem = s.mem := rfl
@[simp] theorem setReg_trace : (s.setReg r v).trace = s.trace := rfl
@[simp] theorem setReg_signals : (s.setReg r v).signals = s.signals := rfl
@[simp] theorem setReg_bus : (s.setReg r v).bus = s.bus := rfl
@[simp] theorem setReg_inputs : (s.setReg r v).inputs = s.inputs := rfl

/-! ### setPc -/

@[simp] theorem setPc_pc : (s.setPc v).pc = v := rfl
@[simp] theorem setPc_ir : (s.setPc v).ir = s.ir := rfl
@[simp] theorem setPc_fl : (s.setPc v).fl = s.fl := rfl
@[simp] theorem setPc_ie : (s.setPc v).ie = s.ie := rfl
@[simp] theorem setPc_run : (s.setPc v).run = s.run := rfl
@[simp] theorem setPc_cause : (s.setPc v).cause = s.cause := rfl
@[simp] theorem setPc_info : (s.setPc v).info = s.info := rfl
@[simp] theorem setPc_mem : (s.setPc v).mem = s.mem := rfl
@[simp] theorem setPc_trace : (s.setPc v).trace = s.trace := rfl
@[simp] theorem setPc_signals : (s.setPc v).signals = s.signals := rfl
@[simp] theorem setPc_bus : (s.setPc v).bus = s.bus := rfl
@[simp] theorem setPc_inputs : (s.setPc v).inputs = s.inputs := rfl
@[simp] theorem setPc_reg : (s.setPc v).reg q = s.reg q := rfl

/-! ### setFl -/

@[simp] theorem setFl_pc : (s.setFl v).pc = s.pc := rfl
@[simp] theorem setFl_ir : (s.setFl v).ir = s.ir := rfl
@[simp] theorem setFl_fl : (s.setFl v).fl = v := rfl
@[simp] theorem setFl_ie : (s.setFl v).ie = s.ie := rfl
@[simp] theorem setFl_run : (s.setFl v).run = s.run := rfl
@[simp] theorem setFl_cause : (s.setFl v).cause = s.cause := rfl
@[simp] theorem setFl_info : (s.setFl v).info = s.info := rfl
@[simp] theorem setFl_mem : (s.setFl v).mem = s.mem := rfl
@[simp] theorem setFl_trace : (s.setFl v).trace = s.trace := rfl
@[simp] theorem setFl_signals : (s.setFl v).signals = s.signals := rfl
@[simp] theorem setFl_bus : (s.setFl v).bus = s.bus := rfl
@[simp] theorem setFl_inputs : (s.setFl v).inputs = s.inputs := rfl
@[simp] theorem setFl_reg : (s.setFl v).reg q = s.reg q := rfl

/-! ### setIe -/

@[simp] theorem setIe_pc : (s.setIe b).pc = s.pc := rfl
@[simp] theorem setIe_ir : (s.setIe b).ir = s.ir := rfl
@[simp] theorem setIe_fl : (s.setIe b).fl = s.fl := rfl
@[simp] theorem setIe_ie : (s.setIe b).ie = b := rfl
@[simp] theorem setIe_run : (s.setIe b).run = s.run := rfl
@[simp] theorem setIe_cause : (s.setIe b).cause = s.cause := rfl
@[simp] theorem setIe_info : (s.setIe b).info = s.info := rfl
@[simp] theorem setIe_mem : (s.setIe b).mem = s.mem := rfl
@[simp] theorem setIe_trace : (s.setIe b).trace = s.trace := rfl
@[simp] theorem setIe_signals : (s.setIe b).signals = s.signals := rfl
@[simp] theorem setIe_bus : (s.setIe b).bus = s.bus := rfl
@[simp] theorem setIe_inputs : (s.setIe b).inputs = s.inputs := rfl
@[simp] theorem setIe_reg : (s.setIe b).reg q = s.reg q := rfl

/-! ### memRead -/

@[simp] theorem memRead_pc : (memRead a s).2.pc = s.pc := rfl
@[simp] theorem memRead_ir : (memRead a s).2.ir = s.ir := rfl
@[simp] theorem memRead_fl : (memRead a s).2.fl = s.fl := rfl
@[simp] theorem memRead_ie : (memRead a s).2.ie = s.ie := rfl
@[simp] theorem memRead_run : (memRead a s).2.run = s.run := rfl
@[simp] theorem memRead_cause : (memRead a s).2.cause = s.cause := rfl
@[simp] theorem memRead_info : (memRead a s).2.info = s.info := rfl
@[simp] theorem memRead_mem : (memRead a s).2.mem = s.mem := rfl
@[simp] theorem memRead_trace : (memRead a s).2.trace = s.trace := rfl
@[simp] theorem memRead_signals : (memRead a s).2.signals = s.signals := rfl
@[simp] theorem memRead_bus : (memRead a s).2.bus = s.bus ++ [.read a (s.mem.read a)] := rfl
@[simp] theorem memRead_inputs : (memRead a s).2.inputs = s.inputs := rfl
@[simp] theorem memRead_reg : (memRead a s).2.reg q = s.reg q := rfl

/-! ### memWrite -/

@[simp] theorem memWrite_pc : (memWrite a v s).pc = s.pc := rfl
@[simp] theorem memWrite_ir : (memWrite a v s).ir = s.ir := rfl
@[simp] theorem memWrite_fl : (memWrite a v s).fl = s.fl := rfl
@[simp] theorem memWrite_ie : (memWrite a v s).ie = s.ie := rfl
@[simp] theorem memWrite_run : (memWrite a v s).run = s.run := rfl
@[simp] theorem memWrite_cause : (memWrite a v s).cause = s.cause := rfl
@[simp] theorem memWrite_info : (memWrite a v s).info = s.info := rfl
@[simp] theorem memWrite_mem : (memWrite a v s).mem = s.mem.write a v := rfl
@[simp] theorem memWrite_trace : (memWrite a v s).trace = s.trace := rfl
@[simp] theorem memWrite_signals : (memWrite a v s).signals = s.signals := rfl
@[simp] theorem memWrite_bus : (memWrite a v s).bus = s.bus ++ [.write a v] := rfl
@[simp] theorem memWrite_inputs : (memWrite a v s).inputs = s.inputs := rfl
@[simp] theorem memWrite_reg : (memWrite a v s).reg q = s.reg q := rfl

/-! ### emit -/

@[simp] theorem emit_pc : (emit k v s).pc = s.pc := rfl
@[simp] theorem emit_ir : (emit k v s).ir = s.ir := rfl
@[simp] theorem emit_fl : (emit k v s).fl = s.fl := rfl
@[simp] theorem emit_ie : (emit k v s).ie = s.ie := rfl
@[simp] theorem emit_run : (emit k v s).run = s.run := rfl
@[simp] theorem emit_cause : (emit k v s).cause = s.cause := rfl
@[simp] theorem emit_info : (emit k v s).info = s.info := rfl
@[simp] theorem emit_mem : (emit k v s).mem = s.mem := rfl
@[simp] theorem emit_trace : (emit k v s).trace = s.trace ++ [⟨k, v⟩] := rfl
@[simp] theorem emit_signals : (emit k v s).signals = s.signals := rfl
@[simp] theorem emit_bus : (emit k v s).bus = s.bus := rfl
@[simp] theorem emit_inputs : (emit k v s).inputs = s.inputs := rfl
@[simp] theorem emit_reg : (emit k v s).reg q = s.reg q := rfl

/-! ### raiseFatal -/

@[simp] theorem raiseFatal_pc : (raiseFatal c v s).pc = s.pc := rfl
@[simp] theorem raiseFatal_ir : (raiseFatal c v s).ir = s.ir := rfl
@[simp] theorem raiseFatal_fl : (raiseFatal c v s).fl = s.fl := rfl
@[simp] theorem raiseFatal_ie : (raiseFatal c v s).ie = s.ie := rfl
@[simp] theorem raiseFatal_run : (raiseFatal c v s).run = .halted := rfl
@[simp] theorem raiseFatal_cause : (raiseFatal c v s).cause = c := rfl
@[simp] theorem raiseFatal_info : (raiseFatal c v s).info = v := rfl
@[simp] theorem raiseFatal_mem : (raiseFatal c v s).mem = s.mem := rfl
@[simp] theorem raiseFatal_trace : (raiseFatal c v s).trace = s.trace := rfl
@[simp] theorem raiseFatal_signals : (raiseFatal c v s).signals = s.signals ++ [.diag c v, .stop] := rfl
@[simp] theorem raiseFatal_bus : (raiseFatal c v s).bus = s.bus := rfl
@[simp] theorem raiseFatal_inputs : (raiseFatal c v s).inputs = s.inputs := rfl
@[simp] theorem raiseFatal_reg : (raiseFatal c v s).reg q = s.reg q := rfl

/-! ### stopByHalt -/

@[simp] theorem stopByHalt_pc : (stopByHalt s).pc = s.pc := rfl
@[simp] theorem stopByHalt_ir : (stopByHalt s).ir = s.ir := rfl
@[simp] theorem stopByHalt_fl : (stopByHalt s).fl = s.fl := rfl
@[simp] theorem stopByHalt_ie : (stopByHalt s).ie = s.ie := rfl
@[simp] theorem stopByHalt_run : (stopByHalt s).run = .halted := rfl
@[simp] theorem stopByHalt_cause : (stopByHalt s).cause = .hlt := rfl
@[simp] theorem stopByHalt_info : (stopByHalt s).info = s.ir := rfl
@[simp] theorem stopByHalt_mem : (stopByHalt s).mem = s.mem := rfl
@[simp] theorem stopByHalt_trace : (stopByHalt s).trace = s.trace := rfl
@[simp] theorem stopByHalt_signals : (stopByHalt s).signals = s.signals ++ [.stop] := rfl
@[simp] theorem stopByHalt_bus : (stopByHalt s).bus = s.bus := rfl
@[simp] theorem stopByHalt_inputs : (stopByHalt s).inputs = s.inputs := rfl
@[simp] theorem stopByHalt_reg : (stopByHalt s).reg q = s.reg q := rfl

/-! ### fetchOpcode -/

@[simp] theorem fetchOpcode_pc : (fetchOpcode s).pc = s.pc := rfl
@[simp] theorem fetchOpcode_ir : (fetchOpcode s).ir = s.mem.read s.pc := rfl
@[simp] theorem fetchOpcode_fl : (fetchOpcode s).fl = s.fl := rfl
@[simp] theorem fetchOpcode_ie : (fetchOpcode s).ie = s.ie := rfl
@[simp] theorem fetchOpcode_run : (fetchOpcode s).run = s.run := rfl
@[simp] theorem fetchOpcode_cause : (fetchOpcode s).cause = s.cause := rfl
@[simp] theorem fetchOpcode_info : (fetchOpcode s).info = s.info := rfl
@[simp] theorem fetchOpcode_mem : (fetchOpcode s).mem = s.mem := rfl
@[simp] theorem fetchOpcode_trace : (fetchOpcode s).trace = s.trace := rfl
@[simp] theorem fetchOpcode_signals : (fetchOpcode s).signals = s.signals := rfl
@[simp] theorem fetchOpcode_bus : (fetchOpcode s).bus = s.bus ++ [.read s.pc (s.mem.read s.pc)] := rfl
@[simp] theorem fetchOpcode_inputs : (fetchOpcode s).inputs = s.inputs := rfl
@[simp] theorem fetchOpcode_reg : (fetchOpcode s).reg q = s.reg q := rfl

/-! ### externalWrite -/

@[simp] theorem externalWrite_pc : (externalWrite a v s).pc = s.pc := rfl
@[simp] theorem externalWrite_ir : (externalWrite a v s).ir = s.ir := rfl
@[simp] theorem externalWrite_fl : (externalWrite a v s).fl = s.fl := rfl
@[simp] theorem externalWrite_ie : (externalWrite a v s).ie = s.ie := rfl
@[simp] theorem externalWrite_run : (externalWrite a v s).run = s.run := rfl
@[simp] theorem externalWrite_cause : (externalWrite a v s).cause = s.cause := rfl
@[simp] theorem externalWrite_info : (externalWrite a v s).info = s.info := rfl
@[simp] theorem externalWrite_mem : (externalWrite a v s).mem = s.mem.write a v := rfl
@[simp] theorem externalWrite_trace : (externalWrite a v s).trace = s.trace := rfl
@[simp] theorem externalWrite_signals : (externalWrite a v s).signals = s.signals := rfl
@[simp] theorem externalWrite_bus : (externalWrite a v s).bus = s.bus := rfl
@[simp] theorem externalWrite_inputs : (externalWrite a v s).inputs = s.inputs := rfl
@[simp] theorem externalWrite_reg : (externalWrite a v s).reg q = s.reg q := rfl

@[simp] theorem memRead_value : (memRead a s).1 = s.mem.read a := rfl

/-- A register write, read back: the destination has the value, every other register is as before. -/
theorem setReg_reg : (s.setReg r v).reg q = if q = r then v else s.reg q := by
  simp only [State.reg, State.setReg]
  by_cases h : q = r
  · subst h; simp
  · have : r.val ≠ q.val := fun e => h (Fin.ext e.symm)
    simp [h, this]

@[simp] theorem setReg_reg_same : (s.setReg r v).reg r = v := by simp [setReg_reg]

@[simp] theorem setReg_reg_ne (h : q ≠ r) : (s.setReg r v).reg q = s.reg q := by simp [setReg_reg, h]

@[simp] theorem setReg_setReg : (s.setReg r v).setReg r a = s.setReg r a := by
  simp [State.setReg]

/-- Two states with the same fields, registers read one by one, are the same state. -/
theorem State.ext_regs {s t : State} (hr : ∀ r, t.reg r = s.reg r) (hpc : t.pc = s.pc) (hir : t.ir = s.ir)
    (hfl : t.fl = s.fl) (hie : t.ie = s.ie) (hrun : t.run = s.run) (hc : t.cause = s.cause) (hi : t.info = s.info)
    (hm : t.mem = s.mem) (ht : t.trace = s.trace) (hs : t.signals = s.signals) (hb : t.bus = s.bus)
    (hin : t.inputs = s.inputs) : t = s := by
  cases s; cases t
  simp only [State.mk.injEq] at *
  exact ⟨Vector.ext fun i h => hr ⟨i, h⟩, hpc, hir, hfl, hie, hrun, hc, hi, hm, ht, hs, hb, hin⟩

end Sys2Proof.Machine
end

