-- ==== Sys2Proof/Laws/Flags.lean ====
section
/-! SUPPORT. What setting one flag does to every bit of FL. -/

namespace Sys2Proof.Machine

/-- `setFlag` writes its own bit and no other. -/
theorem setFlag_getLsbD (f : Flag) (v : Bool) (fl : Byte) (k : Nat) :
    (setFlag f v fl).getLsbD k = if k = flagIndex f then v else fl.getLsbD k := by
  match k with
  | 0 | 1 | 2 | 3 | 4 | 5 | 6 | 7 => cases f <;> cases v <;> simp [setFlag, flagIndex]
  | k + 8 =>
    have hk : ¬ k + 8 = flagIndex f := by cases f <;> simp [flagIndex]
    rw [if_neg hk, BitVec.getLsbD_of_ge _ _ (by omega), BitVec.getLsbD_of_ge _ _ (by omega)]

/-- The bit of line `i` is set and no other. -/
theorem lineBit_getLsbD (i : Line) (k : Nat) : (lineBit i).getLsbD k = decide (k = i.val) := by
  have hi := i.isLt
  simp only [lineBit, BitVec.getLsbD_shiftLeft, BitVec.getLsbD_one]
  by_cases h1 : k < 8 <;> by_cases h2 : k < i.val <;> simp [h1, h2] <;> omega

theorem mem_all_lines : ∀ j : Line, j ∈ ([0, 1, 2, 3, 4, 5, 6, 7] : List Line) := by decide

/-- The line the scan finds is set, and no lower line is. -/
theorem lowestLine_some {p : Byte} {i : Line} (h : lowestLine p = some i) :
    p.getLsbD i.val = true ∧ ∀ j : Line, j < i → p.getLsbD j.val = false := by
  refine ⟨by simpa using List.find?_some h, fun j hj => ?_⟩
  obtain ⟨-, before, after, hl, hn⟩ := List.find?_eq_some_iff_append.mp h
  have hmem : j ∈ before ++ i :: after := hl ▸ mem_all_lines j
  have hs : (before ++ i :: after).Pairwise (fun a b => a < b) := by rw [← hl]; decide
  rw [List.pairwise_append, List.pairwise_cons] at hs
  rcases List.mem_append.mp hmem with h1 | h1
  · simpa using hn j h1
  · rcases List.mem_cons.mp h1 with rfl | h2
    · exact absurd hj (Fin.lt_irrefl j)
    · exact absurd hj (Fin.lt_asymm (hs.2.1.1 j h2))

/-- The scan for the lowest set bit, said without the scan. -/
theorem lowestLine_eq_some {p : Byte} {i : Line} :
    lowestLine p = some i ↔ p.getLsbD i.val = true ∧ ∀ j : Line, j < i → p.getLsbD j.val = false := by
  refine ⟨lowestLine_some, fun ⟨hi, hlow⟩ => ?_⟩
  cases hf : lowestLine p with
  | none => exact absurd hi (List.find?_eq_none.mp hf i (mem_all_lines i))
  | some k =>
    obtain ⟨hk, hklow⟩ := lowestLine_some hf
    congr 1
    refine Fin.le_antisymm (Fin.not_lt.mp fun h => ?_) (Fin.not_lt.mp fun h => ?_)
    · exact Bool.false_ne_true ((hklow i h).symm.trans hi)
    · exact Bool.false_ne_true ((hlow k h).symm.trans hk)

/-- The scan finds nothing exactly when no bit is set. -/
theorem lowestLine_eq_none {p : Byte} : lowestLine p = none ↔ ∀ j : Line, p.getLsbD j.val = false := by
  simp only [lowestLine, List.find?_eq_none, Bool.not_eq_true]
  exact ⟨fun h j => h j (mem_all_lines j), fun h j _ => h j⟩

end Sys2Proof.Machine
end

