-- ==== Sys2Proof/Laws/Memory.lean ====
section
/-! SUPPORT. The laws of memory: what a read gives after a write, and that every memory operation keeps the canonical
form. -/

namespace Sys2Proof.Machine

theorem byteAt_dropKey (m : Memory) (k n : Nat) :
    (m.dropKey k).byteAt n = if n = k then Config.memoryDefault else m.byteAt n := by
  induction m with
  | nil => simp [Memory.dropKey, Memory.byteAt]
  | cons c rest ih =>
    obtain ⟨key, v⟩ := c
    by_cases h : key = k
    · subst h
      by_cases hn : n = key
      · simpa [Memory.dropKey, hn] using ih
      · simp [Memory.dropKey, Memory.byteAt, ih, hn, Ne.symm hn]
    · by_cases hn : key = n
      · subst hn; simp [Memory.dropKey, Memory.byteAt, h]
      · simp [Memory.dropKey, Memory.byteAt, h, hn, ih]

theorem byteAt_insertCell (m : Memory) (k n : Nat) (v : Byte) (h : m.byteAt k = Config.memoryDefault)
    (hk : ∀ c ∈ m, c.1 ≠ k) : (m.insertCell k v).byteAt n = if n = k then v else m.byteAt n := by
  induction m with
  | nil =>
    by_cases hn : n = k
    · simp [Memory.insertCell, Memory.byteAt, hn]
    · simp [Memory.insertCell, Memory.byteAt, hn, Ne.symm hn]
  | cons c rest ih =>
    obtain ⟨key, w⟩ := c
    have hne : key ≠ k := hk (key, w) (by simp)
    have hrest : ∀ c ∈ rest, c.1 ≠ k := fun c hc => hk c (by simp [hc])
    have hl : Memory.byteAt rest k = Config.memoryDefault := by simpa [Memory.byteAt, hne] using h
    by_cases hlt : k < key
    · by_cases hn : n = k
      · subst hn; simp [Memory.insertCell, Memory.byteAt, hlt]
      · simp [Memory.insertCell, Memory.byteAt, hlt, hn, Ne.symm hn]
    · by_cases hn : key = n
      · subst hn; simp [Memory.insertCell, Memory.byteAt, hlt, hne]
      · simp [Memory.insertCell, Memory.byteAt, hlt, hn, ih hl hrest]

theorem mem_dropKey {m : Memory} {k : Nat} {c : Host.Cell} : c ∈ m.dropKey k ↔ c ∈ m ∧ c.1 ≠ k := by
  induction m with
  | nil => simp [Memory.dropKey]
  | cons d rest ih =>
    obtain ⟨key, v⟩ := d
    by_cases h : key = k
    · subst h
      simp only [Memory.dropKey, if_pos, ih, List.mem_cons]
      constructor
      · exact fun ⟨hm, hne⟩ => ⟨.inr hm, hne⟩
      · rintro ⟨rfl | hm, hne⟩
        · exact absurd rfl hne
        · exact ⟨hm, hne⟩
    · simp only [Memory.dropKey, if_neg h, ih, List.mem_cons]
      constructor
      · rintro (rfl | ⟨hm, hne⟩)
        · exact ⟨.inl rfl, h⟩
        · exact ⟨.inr hm, hne⟩
      · rintro ⟨rfl | hm, hne⟩
        · exact .inl rfl
        · exact .inr ⟨hm, hne⟩

theorem mem_insertCell {m : Memory} {k : Nat} {v : Byte} {c : Host.Cell} :
    c ∈ m.insertCell k v ↔ c = (k, v) ∨ c ∈ m := by
  induction m with
  | nil => simp [Memory.insertCell]
  | cons d rest ih =>
    obtain ⟨key, w⟩ := d
    by_cases h : k < key
    · simp [Memory.insertCell, h]
    · simp only [Memory.insertCell, if_neg h, List.mem_cons, ih]
      constructor
      · rintro (h1 | h1 | h1) <;> simp [h1]
      · rintro (h1 | h1 | h1) <;> simp [h1]

/-- A read after a write: the written byte at the written address, every other byte as before. -/
theorem read_write (m : Memory) (a v b : Byte) :
    (m.write a v).read b = if b = a then v else m.read b := by
  have hb : (b.toNat = a.toNat) ↔ b = a := BitVec.toNat_inj
  unfold Memory.write Memory.read
  by_cases hv : v = Config.memoryDefault
  · simp [hv, byteAt_dropKey, hb]
  · rw [if_neg hv, byteAt_insertCell _ _ _ _ (by simp [byteAt_dropKey])
      (fun c hc => (mem_dropKey.mp hc).2), byteAt_dropKey]
    by_cases h : b = a <;> simp [h, hb]

@[simp] theorem read_write_same (m : Memory) (a v : Byte) : (m.write a v).read a = v := by simp [read_write]

theorem read_write_ne (m : Memory) {a b : Byte} (v : Byte) (h : b ≠ a) : (m.write a v).read b = m.read b := by
  simp [read_write, h]

theorem dropKey_wf {m : Memory} (k : Nat) (h : m.wf) : (m.dropKey k).wf := by
  refine ⟨?_, fun c hc => h.2 c (mem_dropKey.mp hc).1⟩
  obtain ⟨hp, -⟩ := h
  induction m with
  | nil => simp [Memory.dropKey]
  | cons d rest ih =>
    rw [List.pairwise_cons] at hp
    by_cases hk : d.1 = k
    · simpa [Memory.dropKey, hk] using ih hp.2
    · simp only [Memory.dropKey, if_neg hk, List.pairwise_cons]
      exact ⟨fun c hc => hp.1 c (mem_dropKey.mp hc).1, ih hp.2⟩

theorem insertCell_wf {m : Memory} {k : Nat} {v : Byte} (h : m.wf) (hk : k < 256) (hv : v ≠ Config.memoryDefault)
    (hne : ∀ c ∈ m, c.1 ≠ k) : (m.insertCell k v).wf := by
  refine ⟨?_, fun c hc => ?_⟩
  · obtain ⟨hp, -⟩ := h
    induction m with
    | nil => simp [Memory.insertCell]
    | cons d rest ih =>
      obtain ⟨key, w⟩ := d
      rw [List.pairwise_cons] at hp
      by_cases hlt : k < key
      · simp only [Memory.insertCell, if_pos hlt, List.pairwise_cons]
        refine ⟨?_, hp⟩
        rintro c (_ | ⟨_, hc⟩)
        · exact hlt
        · exact Nat.lt_trans hlt (hp.1 c hc)
      · simp only [Memory.insertCell, if_neg hlt, List.pairwise_cons]
        refine ⟨fun c hc => ?_, ih (fun c hc => hne c (by simp [hc])) hp.2⟩
        rcases mem_insertCell.mp hc with rfl | hc
        · have := hne (key, w) (by simp)
          exact Nat.lt_of_le_of_ne (Nat.le_of_not_lt hlt) this
        · exact hp.1 c hc
  · rcases mem_insertCell.mp hc with rfl | hc
    · exact ⟨hk, hv⟩
    · exact h.2 c hc

/-- Every write keeps the canonical form. -/
theorem write_wf {m : Memory} (a v : Byte) (h : m.wf) : (m.write a v).wf := by
  unfold Memory.write
  split
  · exact dropKey_wf _ h
  · exact insertCell_wf (dropKey_wf _ h) a.isLt ‹_› (fun c hc => (mem_dropKey.mp hc).2)

/-- Reset memory is canonical. -/
theorem reset_mem_wf : State.reset.mem.wf := ⟨List.Pairwise.nil, by simp [State.reset, State.resetWith]⟩

theorem byteAt_of_mem {m : Memory} (hp : m.Pairwise (fun c d => c.1 < d.1)) {c : Host.Cell} (hc : c ∈ m) :
    m.byteAt c.1 = c.2 := by
  induction m with
  | nil => simp at hc
  | cons d rest ih =>
    rw [List.pairwise_cons] at hp
    rcases List.mem_cons.mp hc with rfl | hc'
    · simp [Memory.byteAt]
    · have := hp.1 c hc'
      rw [show Memory.byteAt (d :: rest) c.1 = Memory.byteAt rest c.1 by
        simp [Memory.byteAt, Nat.ne_of_lt this]]
      exact ih hp.2 hc'

theorem mem_iff_byteAt {m : Memory} (h : m.wf) (n : Nat) (v : Byte) :
    (n, v) ∈ m ↔ m.byteAt n = v ∧ v ≠ Config.memoryDefault := by
  constructor
  · exact fun hc => ⟨byteAt_of_mem h.1 hc, (h.2 _ hc).2⟩
  · rintro ⟨hl, hv⟩
    obtain ⟨-, -⟩ := h
    induction m with
    | nil => exact absurd hl.symm hv
    | cons d rest ih =>
      by_cases hk : d.1 = n
      · have : d.2 = v := by simpa [Memory.byteAt, hk] using hl
        simp [← hk, ← this]
      · exact List.mem_cons_of_mem _ (ih (by simpa [Memory.byteAt, hk] using hl))

/-- Canonical memories that read alike at every address are the same list. -/
theorem eq_of_read_eq {m n : Memory} (hm : m.wf) (hn : n.wf) (h : ∀ a, m.read a = n.read a) : m = n := by
  have key : ∀ c : Host.Cell, c ∈ m ↔ c ∈ n := by
    rintro ⟨k, v⟩
    have hr : k < 256 → m.byteAt k = n.byteAt k := fun hk => by
      have := h (BitVec.ofNat 8 k)
      simpa [Memory.read, Nat.mod_eq_of_lt hk] using this
    constructor
    · intro hc
      have := hr (hm.2 _ hc).1
      exact (mem_iff_byteAt hn k v).2 (this ▸ (mem_iff_byteAt hm k v).1 hc)
    · intro hc
      have := hr (hn.2 _ hc).1
      exact (mem_iff_byteAt hm k v).2 (this ▸ (mem_iff_byteAt hn k v).1 hc)
  clear h
  obtain ⟨hpm, -⟩ := hm
  obtain ⟨hpn, -⟩ := hn
  induction m generalizing n with
  | nil =>
    cases n with
    | nil => rfl
    | cons d _ => exact absurd ((key d).2 (by simp)) (by simp)
  | cons c rest ih =>
    cases n with
    | nil => exact absurd ((key c).1 (by simp)) (by simp)
    | cons d rest' =>
      rw [List.pairwise_cons] at hpm hpn
      have hcd : c = d := by
        rcases List.mem_cons.mp ((key c).1 (by simp)) with h1 | h1
        · exact h1
        · rcases List.mem_cons.mp ((key d).2 (by simp)) with h2 | h2
          · exact h2.symm
          · have := hpn.1 c h1
            have := hpm.1 d h2
            omega
      subst hcd
      congr 1
      refine ih (fun e => ⟨fun he => ?_, fun he => ?_⟩) hpm.2 hpn.2
      · rcases List.mem_cons.mp ((key e).1 (by simp [he])) with rfl | h1
        · exact absurd (hpm.1 e he) (by omega)
        · exact h1
      · rcases List.mem_cons.mp ((key e).2 (by simp [he])) with rfl | h1
        · exact absurd (hpn.1 e he) (by omega)
        · exact h1

end Sys2Proof.Machine
end

