-- ==== Sys2Proof/Laws/Operands.lean ====
section
/-! SUPPORT. The operand forms: a register byte names its register, any other byte is refused. -/

namespace Sys2Proof.Machine

open Sys2Proof.Safety

@[simp] theorem regOf_regByte (r : Reg) : regOf (regByte r) = some r := by
  have h : (regByte r).toNat = r.val := by
    simp only [regByte, BitVec.toNat_ofNat]; omega
  simp [regOf, h]

/-- A byte in 0..7 names the register `regNamed` says. -/
theorem regOf_of_isRegister {b : Byte} (h : isRegister b = true) : regOf b = some (regNamed b) := by
  have h' : b.toNat < 8 := by simpa [isRegister] using h
  simp only [regOf, h', dif_pos, regNamed, Option.some.injEq, Fin.mk.injEq]
  omega

theorem regOf_of_not_isRegister {b : Byte} (h : isRegister b = false) : regOf b = none := by
  simpa [regOf, isRegister] using h

@[simp] theorem isRegister_regByte (r : Reg) : isRegister (regByte r) = true := by
  simp only [isRegister, regByte, BitVec.toNat_ofNat, decide_eq_true_eq]; omega

@[simp] theorem regNamed_regByte (r : Reg) : regNamed (regByte r) = r := by
  simp only [regNamed, regByte, BitVec.toNat_ofNat, Fin.ext_iff]; omega

/-- A byte in 0..7 is the byte of the register it names. -/
theorem regByte_regNamed {b : Byte} (h : isRegister b = true) : regByte (regNamed b) = b := by
  have h' : b.toNat < 8 := by simpa [isRegister] using h
  apply BitVec.eq_of_toNat_eq
  simp only [regByte, regNamed, BitVec.toNat_ofNat]; omega

@[simp] theorem withReg_regByte (r : Reg) (act : Reg → State) : withReg (regByte r) act = .next (act r) := by
  simp [withReg]

@[simp] theorem withRegs_regByte (d r : Reg) (act : Reg → Reg → State) :
    withRegs (regByte d) (regByte r) act = .next (act d r) := by
  simp [withRegs]

/-- Everything an action with one register operand can answer. -/
theorem withReg_cases (a : Byte) (act : Reg → State) :
    (isRegister a = true ∧ withReg a act = .next (act (regNamed a))) ∨
    (isRegister a = false ∧ withReg a act = .refused (.registerOperandAboveSeven a)) := by
  cases h : isRegister a
  · exact .inr ⟨rfl, by simp [withReg, regOf_of_not_isRegister h]⟩
  · exact .inl ⟨rfl, by simp [withReg, regOf_of_isRegister h]⟩

/-- Everything an action with two register operands can answer. -/
theorem withRegs_cases (a b : Byte) (act : Reg → Reg → State) :
    (isRegister a = true ∧ isRegister b = true ∧ withRegs a b act = .next (act (regNamed a) (regNamed b))) ∨
    (isRegister a = false ∧ withRegs a b act = .refused (.registerOperandAboveSeven a)) ∨
    (isRegister a = true ∧ isRegister b = false ∧ withRegs a b act = .refused (.registerOperandAboveSeven b)) := by
  cases h : isRegister a
  · exact .inr (.inl ⟨rfl, by simp [withRegs, regOf_of_not_isRegister h]⟩)
  · rcases withReg_cases b (act (regNamed a)) with ⟨hb, e⟩ | ⟨hb, e⟩
    · exact .inl ⟨rfl, hb, by simpa [withRegs, regOf_of_isRegister h] using e⟩
    · exact .inr (.inr ⟨rfl, hb, by simpa [withRegs, regOf_of_isRegister h] using e⟩)

/-- If an action with one register operand answers a next state, the byte names a register and the state is the
action's. -/
theorem withReg_next {a : Byte} {act : Reg → State} {t : State} (h : withReg a act = .next t) :
    isRegister a = true ∧ t = act (regNamed a) := by
  rcases withReg_cases a act with ⟨ha, e⟩ | ⟨-, e⟩
  · exact ⟨ha, by simpa [e, eq_comm] using h⟩
  · simp [e] at h

/-- If an action with two register operands answers a next state, both bytes name registers and the state is the
action's. -/
theorem withRegs_next {a b : Byte} {act : Reg → Reg → State} {t : State} (h : withRegs a b act = .next t) :
    isRegister a = true ∧ isRegister b = true ∧ t = act (regNamed a) (regNamed b) := by
  rcases withRegs_cases a b act with ⟨ha, hb, e⟩ | ⟨-, e⟩ | ⟨-, -, e⟩
  · exact ⟨ha, hb, by simpa [e, eq_comm] using h⟩
  · simp [e] at h
  · simp [e] at h

end Sys2Proof.Machine
end

