-- ==== Sys2Proof/Laws/Ops.lean ====
section
/-! SUPPORT. The shared operations: what the stack primitives, interrupt entry and return, the fetch, the advance of PC
and the external events do, field by field. -/

namespace Sys2Proof.Machine

open Sys2Proof.Safety

variable (s : State) (r q : Reg) (v : Byte) (i : Line)

/-! ### push -/

@[simp] theorem push_pc : (push v s).pc = s.pc := rfl
@[simp] theorem push_ir : (push v s).ir = s.ir := rfl
@[simp] theorem push_fl : (push v s).fl = s.fl := rfl
@[simp] theorem push_ie : (push v s).ie = s.ie := rfl
@[simp] theorem push_run : (push v s).run = s.run := rfl
@[simp] theorem push_cause : (push v s).cause = s.cause := rfl
@[simp] theorem push_info : (push v s).info = s.info := rfl
@[simp] theorem push_mem : (push v s).mem = s.mem.write (s.reg spReg - 1) v := rfl
@[simp] theorem push_trace : (push v s).trace = s.trace := rfl
@[simp] theorem push_signals : (push v s).signals = s.signals := rfl
@[simp] theorem push_bus : (push v s).bus = s.bus ++ [.write (s.reg spReg - 1) v] := rfl
@[simp] theorem push_inputs : (push v s).inputs = s.inputs := rfl

theorem push_reg : (push v s).reg q = if q = spReg then s.reg spReg - 1 else s.reg q := by
  simp only [push, memWrite_reg, setReg_reg]

/-! ### pop -/

@[simp] theorem pop_pc : (pop s).2.pc = s.pc := rfl
@[simp] theorem pop_ir : (pop s).2.ir = s.ir := rfl
@[simp] theorem pop_fl : (pop s).2.fl = s.fl := rfl
@[simp] theorem pop_ie : (pop s).2.ie = s.ie := rfl
@[simp] theorem pop_run : (pop s).2.run = s.run := rfl
@[simp] theorem pop_cause : (pop s).2.cause = s.cause := rfl
@[simp] theorem pop_info : (pop s).2.info = s.info := rfl
@[simp] theorem pop_mem : (pop s).2.mem = s.mem := rfl
@[simp] theorem pop_trace : (pop s).2.trace = s.trace := rfl
@[simp] theorem pop_signals : (pop s).2.signals = s.signals := rfl
@[simp] theorem pop_bus : (pop s).2.bus = s.bus ++ [readOf s (s.reg spReg)] := rfl
@[simp] theorem pop_inputs : (pop s).2.inputs = s.inputs := rfl

@[simp] theorem pop_value : (pop s).1 = s.mem.read (s.reg spReg) := rfl

theorem pop_reg : (pop s).2.reg q = if q = spReg then s.reg spReg + 1 else s.reg q := by
  simp only [pop, memRead_reg, setReg_reg]

/-! ### popReg -/

@[simp] theorem popReg_pc : (popReg r s).pc = s.pc := rfl
@[simp] theorem popReg_ir : (popReg r s).ir = s.ir := rfl
@[simp] theorem popReg_fl : (popReg r s).fl = s.fl := rfl
@[simp] theorem popReg_ie : (popReg r s).ie = s.ie := rfl
@[simp] theorem popReg_run : (popReg r s).run = s.run := rfl
@[simp] theorem popReg_cause : (popReg r s).cause = s.cause := rfl
@[simp] theorem popReg_info : (popReg r s).info = s.info := rfl
@[simp] theorem popReg_mem : (popReg r s).mem = s.mem := rfl
@[simp] theorem popReg_trace : (popReg r s).trace = s.trace := rfl
@[simp] theorem popReg_signals : (popReg r s).signals = s.signals := rfl
@[simp] theorem popReg_bus : (popReg r s).bus = s.bus ++ [readOf s (s.reg spReg)] := rfl
@[simp] theorem popReg_inputs : (popReg r s).inputs = s.inputs := rfl

theorem popReg_reg : (popReg r s).reg q =
    if q = r then s.mem.read (s.reg spReg) else if q = spReg then s.reg spReg + 1 else s.reg q := by
  simp only [popReg, setReg_reg, pop_reg, pop_value]

/-! ### popFl -/

@[simp] theorem popFl_pc : (popFl s).pc = s.pc := rfl
@[simp] theorem popFl_ir : (popFl s).ir = s.ir := rfl
@[simp] theorem popFl_fl : (popFl s).fl = s.mem.read (s.reg spReg) := rfl
@[simp] theorem popFl_ie : (popFl s).ie = s.ie := rfl
@[simp] theorem popFl_run : (popFl s).run = s.run := rfl
@[simp] theorem popFl_cause : (popFl s).cause = s.cause := rfl
@[simp] theorem popFl_info : (popFl s).info = s.info := rfl
@[simp] theorem popFl_mem : (popFl s).mem = s.mem := rfl
@[simp] theorem popFl_trace : (popFl s).trace = s.trace := rfl
@[simp] theorem popFl_signals : (popFl s).signals = s.signals := rfl
@[simp] theorem popFl_bus : (popFl s).bus = s.bus ++ [readOf s (s.reg spReg)] := rfl
@[simp] theorem popFl_inputs : (popFl s).inputs = s.inputs := rfl

theorem popFl_reg : (popFl s).reg q = if q = spReg then s.reg spReg + 1 else s.reg q := pop_reg s q

@[simp] theorem readOf_popReg (a : Byte) : readOf (popReg r s) a = readOf s a := rfl

@[simp] theorem readOf_popFl (a : Byte) : readOf (popFl s) a = readOf s a := rfl

/-! ### popPc -/

@[simp] theorem popPc_pc : (popPc s).pc = s.mem.read (s.reg spReg) := rfl
@[simp] theorem popPc_ir : (popPc s).ir = s.ir := rfl
@[simp] theorem popPc_fl : (popPc s).fl = s.fl := rfl
@[simp] theorem popPc_ie : (popPc s).ie = s.ie := rfl
@[simp] theorem popPc_run : (popPc s).run = s.run := rfl
@[simp] theorem popPc_cause : (popPc s).cause = s.cause := rfl
@[simp] theorem popPc_info : (popPc s).info = s.info := rfl
@[simp] theorem popPc_mem : (popPc s).mem = s.mem := rfl
@[simp] theorem popPc_trace : (popPc s).trace = s.trace := rfl
@[simp] theorem popPc_signals : (popPc s).signals = s.signals := rfl
@[simp] theorem popPc_bus : (popPc s).bus = s.bus ++ [readOf s (s.reg spReg)] := rfl
@[simp] theorem popPc_inputs : (popPc s).inputs = s.inputs := rfl

theorem popPc_reg : (popPc s).reg q = if q = spReg then s.reg spReg + 1 else s.reg q := pop_reg s q

/-! ### pushReg -/

@[simp] theorem pushReg_pc : (pushReg r s).pc = s.pc := rfl
@[simp] theorem pushReg_ir : (pushReg r s).ir = s.ir := rfl
@[simp] theorem pushReg_fl : (pushReg r s).fl = s.fl := rfl
@[simp] theorem pushReg_ie : (pushReg r s).ie = s.ie := rfl
@[simp] theorem pushReg_run : (pushReg r s).run = s.run := rfl
@[simp] theorem pushReg_cause : (pushReg r s).cause = s.cause := rfl
@[simp] theorem pushReg_info : (pushReg r s).info = s.info := rfl
@[simp] theorem pushReg_mem : (pushReg r s).mem = s.mem.write (s.reg spReg - 1) (s.reg r) := rfl
@[simp] theorem pushReg_trace : (pushReg r s).trace = s.trace := rfl
@[simp] theorem pushReg_signals : (pushReg r s).signals = s.signals := rfl
@[simp] theorem pushReg_bus : (pushReg r s).bus = s.bus ++ [.write (s.reg spReg - 1) (s.reg r)] := rfl
@[simp] theorem pushReg_inputs : (pushReg r s).inputs = s.inputs := rfl

theorem pushReg_reg : (pushReg r s).reg q = if q = spReg then s.reg spReg - 1 else s.reg q := push_reg s q _

/-! ### saveContext -/

@[simp] theorem saveContext_pc : (saveContext s).pc = s.pc := by simp [saveContext]
@[simp] theorem saveContext_ir : (saveContext s).ir = s.ir := by simp [saveContext]
@[simp] theorem saveContext_fl : (saveContext s).fl = s.fl := by simp [saveContext]
@[simp] theorem saveContext_ie : (saveContext s).ie = s.ie := by simp [saveContext]
@[simp] theorem saveContext_run : (saveContext s).run = s.run := by simp [saveContext]
@[simp] theorem saveContext_cause : (saveContext s).cause = s.cause := by simp [saveContext]
@[simp] theorem saveContext_info : (saveContext s).info = s.info := by simp [saveContext]
@[simp] theorem saveContext_trace : (saveContext s).trace = s.trace := by simp [saveContext]
@[simp] theorem saveContext_signals : (saveContext s).signals = s.signals := by simp [saveContext]
@[simp] theorem saveContext_inputs : (saveContext s).inputs = s.inputs := by simp [saveContext]

/-! ### acknowledge -/

@[simp] theorem acknowledge_pc : (acknowledge i s).pc = s.pc := rfl
@[simp] theorem acknowledge_ir : (acknowledge i s).ir = s.ir := rfl
@[simp] theorem acknowledge_fl : (acknowledge i s).fl = s.fl := rfl
@[simp] theorem acknowledge_ie : (acknowledge i s).ie = s.ie := rfl
@[simp] theorem acknowledge_run : (acknowledge i s).run = s.run := rfl
@[simp] theorem acknowledge_cause : (acknowledge i s).cause = s.cause := rfl
@[simp] theorem acknowledge_info : (acknowledge i s).info = s.info := rfl
@[simp] theorem acknowledge_mem : (acknowledge i s).mem = s.mem := rfl
@[simp] theorem acknowledge_trace : (acknowledge i s).trace = s.trace := rfl
@[simp] theorem acknowledge_signals : (acknowledge i s).signals = s.signals := rfl
@[simp] theorem acknowledge_bus : (acknowledge i s).bus = s.bus := rfl
@[simp] theorem acknowledge_inputs : (acknowledge i s).inputs = s.inputs := rfl

/-! ### interruptEntry -/

@[simp] theorem interruptEntry_pc : (interruptEntry i s).pc = (saveContext (acknowledge i (s.setIe false))).mem.read (vectorAddress i) := by simp [interruptEntry, jumpToVector]
@[simp] theorem interruptEntry_ir : (interruptEntry i s).ir = s.ir := by simp [interruptEntry, jumpToVector]
@[simp] theorem interruptEntry_fl : (interruptEntry i s).fl = s.fl := by simp [interruptEntry, jumpToVector]
@[simp] theorem interruptEntry_ie : (interruptEntry i s).ie = false := by simp [interruptEntry, jumpToVector]
@[simp] theorem interruptEntry_run : (interruptEntry i s).run = s.run := by simp [interruptEntry, jumpToVector]
@[simp] theorem interruptEntry_cause : (interruptEntry i s).cause = s.cause := by simp [interruptEntry, jumpToVector]
@[simp] theorem interruptEntry_info : (interruptEntry i s).info = s.info := by simp [interruptEntry, jumpToVector]
@[simp] theorem interruptEntry_mem : (interruptEntry i s).mem = (saveContext (acknowledge i (s.setIe false))).mem := by simp [interruptEntry, jumpToVector]
@[simp] theorem interruptEntry_trace : (interruptEntry i s).trace = s.trace := by simp [interruptEntry, jumpToVector]
@[simp] theorem interruptEntry_signals : (interruptEntry i s).signals = s.signals := by simp [interruptEntry, jumpToVector]
@[simp] theorem interruptEntry_inputs : (interruptEntry i s).inputs = s.inputs := by simp [interruptEntry, jumpToVector]

/-! ### interruptReturn -/

@[simp] theorem interruptReturn_ir : (interruptReturn s).ir = s.ir := by simp [interruptReturn]
@[simp] theorem interruptReturn_ie : (interruptReturn s).ie = true := by simp [interruptReturn]
@[simp] theorem interruptReturn_run : (interruptReturn s).run = s.run := by simp [interruptReturn]
@[simp] theorem interruptReturn_cause : (interruptReturn s).cause = s.cause := by simp [interruptReturn]
@[simp] theorem interruptReturn_info : (interruptReturn s).info = s.info := by simp [interruptReturn]
@[simp] theorem interruptReturn_mem : (interruptReturn s).mem = s.mem := by simp [interruptReturn]
@[simp] theorem interruptReturn_trace : (interruptReturn s).trace = s.trace := by simp [interruptReturn]
@[simp] theorem interruptReturn_signals : (interruptReturn s).signals = s.signals := by simp [interruptReturn]
@[simp] theorem interruptReturn_inputs : (interruptReturn s).inputs = s.inputs := by simp [interruptReturn]

/-! ### afterFetch -/

@[simp] theorem afterFetch_pc : (afterFetch s).pc = s.pc := rfl
@[simp] theorem afterFetch_ir : (afterFetch s).ir = s.mem.read s.pc := rfl
@[simp] theorem afterFetch_fl : (afterFetch s).fl = s.fl := rfl
@[simp] theorem afterFetch_ie : (afterFetch s).ie = s.ie := rfl
@[simp] theorem afterFetch_run : (afterFetch s).run = s.run := rfl
@[simp] theorem afterFetch_cause : (afterFetch s).cause = s.cause := rfl
@[simp] theorem afterFetch_info : (afterFetch s).info = s.info := rfl
@[simp] theorem afterFetch_mem : (afterFetch s).mem = s.mem := rfl
@[simp] theorem afterFetch_trace : (afterFetch s).trace = s.trace := rfl
@[simp] theorem afterFetch_signals : (afterFetch s).signals = s.signals := rfl
@[simp] theorem afterFetch_bus : (afterFetch s).bus = s.bus ++ [readOf s s.pc, readOf s (s.pc + 1), readOf s (s.pc + 2)] := rfl
@[simp] theorem afterFetch_inputs : (afterFetch s).inputs = s.inputs := rfl

@[simp] theorem afterFetch_reg : (afterFetch s).reg q = s.reg q := rfl

/-! ### raiseInterrupt -/

@[simp] theorem raiseInterrupt_pc : (raiseInterrupt i s).pc = s.pc := rfl
@[simp] theorem raiseInterrupt_ir : (raiseInterrupt i s).ir = s.ir := rfl
@[simp] theorem raiseInterrupt_fl : (raiseInterrupt i s).fl = s.fl := rfl
@[simp] theorem raiseInterrupt_ie : (raiseInterrupt i s).ie = s.ie := rfl
@[simp] theorem raiseInterrupt_run : (raiseInterrupt i s).run = s.run := rfl
@[simp] theorem raiseInterrupt_cause : (raiseInterrupt i s).cause = s.cause := rfl
@[simp] theorem raiseInterrupt_info : (raiseInterrupt i s).info = s.info := rfl
@[simp] theorem raiseInterrupt_mem : (raiseInterrupt i s).mem = s.mem := rfl
@[simp] theorem raiseInterrupt_trace : (raiseInterrupt i s).trace = s.trace := rfl
@[simp] theorem raiseInterrupt_signals : (raiseInterrupt i s).signals = s.signals := rfl
@[simp] theorem raiseInterrupt_bus : (raiseInterrupt i s).bus = s.bus := rfl
@[simp] theorem raiseInterrupt_inputs : (raiseInterrupt i s).inputs = s.inputs := rfl

/-! ### resetEvent -/

@[simp] theorem resetEvent_pc : (resetEvent s).pc = 0x00#8 := rfl
@[simp] theorem resetEvent_ir : (resetEvent s).ir = 0x00#8 := rfl
@[simp] theorem resetEvent_fl : (resetEvent s).fl = 0x00#8 := rfl
@[simp] theorem resetEvent_ie : (resetEvent s).ie = true := rfl
@[simp] theorem resetEvent_run : (resetEvent s).run = .running := rfl
@[simp] theorem resetEvent_cause : (resetEvent s).cause = .none := rfl
@[simp] theorem resetEvent_info : (resetEvent s).info = 0x00#8 := rfl
@[simp] theorem resetEvent_mem : (resetEvent s).mem = s.mem := rfl
@[simp] theorem resetEvent_trace : (resetEvent s).trace = [] := rfl
@[simp] theorem resetEvent_signals : (resetEvent s).signals = [] := rfl
@[simp] theorem resetEvent_bus : (resetEvent s).bus = [] := rfl
@[simp] theorem resetEvent_inputs : (resetEvent s).inputs = s.inputs := rfl

/-! ### addresses near SP -/

theorem byte_sub_sub (x j k : Byte) : x - j - k = x - (j + k) := by bv_omega

theorem byte_add_add (x j k : Byte) : x + j + k = x + (j + k) := by bv_omega

/-! ### the nine pushes and the nine pops -/

/-- SP after the nine pushes is nine lower; no other register moves. -/
theorem saveContext_reg : (saveContext s).reg q = if q = spReg then s.reg spReg - 9#8 else s.reg q := by
  simp only [saveContext, pushReg_reg, push_reg]
  by_cases h : q = spReg
  · subst h; simp only [if_true]; bv_omega
  · simp [h]

/-- The memory the nine pushes leave, written in the order of 60_exceptions.md R239. -/
theorem saveContext_mem : (saveContext s).mem =
    (((((((((s.mem.write (s.reg spReg - 1#8) s.pc).write (s.reg spReg - 2#8) s.fl).write (s.reg spReg - 3#8) (s.reg 0)).write
      (s.reg spReg - 4#8) (s.reg 1)).write (s.reg spReg - 5#8) (s.reg 2)).write (s.reg spReg - 6#8) (s.reg 3)).write
      (s.reg spReg - 7#8) (s.reg 4)).write (s.reg spReg - 8#8) (s.reg 5)).write (s.reg spReg - 9#8) (s.reg 6)) := by
  simp [saveContext, pushReg_reg, push_reg, spReg, byte_sub_sub]

/-- The accesses of the nine pushes, in order. -/
theorem saveContext_bus : (saveContext s).bus = s.bus ++
    [.write (s.reg spReg - 1#8) s.pc, .write (s.reg spReg - 2#8) s.fl, .write (s.reg spReg - 3#8) (s.reg 0),
     .write (s.reg spReg - 4#8) (s.reg 1), .write (s.reg spReg - 5#8) (s.reg 2), .write (s.reg spReg - 6#8) (s.reg 3),
     .write (s.reg spReg - 7#8) (s.reg 4), .write (s.reg spReg - 8#8) (s.reg 5), .write (s.reg spReg - 9#8) (s.reg 6)] := by
  simp [saveContext, pushReg_reg, push_reg, spReg, byte_sub_sub]

/-- The frame of interrupt entry, byte by byte: the nine addresses are distinct, so each keeps what it was pushed, and
every other byte of memory is as before. -/
theorem saveContext_read (a : Byte) : (saveContext s).mem.read a =
    if a = s.reg spReg - 1#8 then s.pc else if a = s.reg spReg - 2#8 then s.fl
    else if a = s.reg spReg - 3#8 then s.reg 0 else if a = s.reg spReg - 4#8 then s.reg 1
    else if a = s.reg spReg - 5#8 then s.reg 2 else if a = s.reg spReg - 6#8 then s.reg 3
    else if a = s.reg spReg - 7#8 then s.reg 4 else if a = s.reg spReg - 8#8 then s.reg 5
    else if a = s.reg spReg - 9#8 then s.reg 6 else s.mem.read a := by
  have e (j k : Byte) : (s.reg spReg - j = s.reg spReg - k) ↔ j = k := by
    constructor
    · intro h; bv_omega
    · rintro rfl; rfl
  rw [saveContext_mem]
  simp only [read_write]
  by_cases h1 : a = s.reg spReg - 1#8
  · simp [h1, e]
  by_cases h2 : a = s.reg spReg - 2#8
  · simp [h2, e]
  by_cases h3 : a = s.reg spReg - 3#8
  · simp [h3, e]
  by_cases h4 : a = s.reg spReg - 4#8
  · simp [h4, e]
  by_cases h5 : a = s.reg spReg - 5#8
  · simp [h5, e]
  by_cases h6 : a = s.reg spReg - 6#8
  · simp [h6, e]
  by_cases h7 : a = s.reg spReg - 7#8
  · simp [h7, e]
  by_cases h8 : a = s.reg spReg - 8#8
  · simp [h8, e]
  · simp [h1, h2, h3, h4, h5, h6, h7, h8]

theorem acknowledge_reg : (acknowledge i s).reg q = if q = isReg then s.reg isReg &&& ~~~ lineBit i else s.reg q :=
  setReg_reg s isReg q _

/-- The registers interrupt entry leaves: SP nine lower, the line's bit clear in IS, the rest as before. -/
theorem interruptEntry_reg : (interruptEntry i s).reg q =
    if q = spReg then s.reg spReg - 9#8 else if q = isReg then s.reg isReg &&& ~~~ lineBit i else s.reg q := by
  simp [interruptEntry, jumpToVector, saveContext_reg, acknowledge_reg, isReg, spReg]

/-- The accesses of interrupt entry: those of the nine pushes, then the read of the vector. -/
theorem interruptEntry_bus : (interruptEntry i s).bus =
    (saveContext (acknowledge i (s.setIe false))).bus ++
      [readOf (saveContext (acknowledge i (s.setIe false))) (vectorAddress i)] := by
  simp [interruptEntry, jumpToVector, readOf]

/-- What IRET restores, each item from its own address above SP. -/
theorem interruptReturn_reg : (interruptReturn s).reg q =
    if q = 6 then s.mem.read (s.reg spReg) else if q = 5 then s.mem.read (s.reg spReg + 1#8)
    else if q = 4 then s.mem.read (s.reg spReg + 2#8) else if q = 3 then s.mem.read (s.reg spReg + 3#8)
    else if q = 2 then s.mem.read (s.reg spReg + 4#8) else if q = 1 then s.mem.read (s.reg spReg + 5#8)
    else if q = 0 then s.mem.read (s.reg spReg + 6#8) else s.reg spReg + 9#8 := by
  match q with
  | 0 | 1 | 2 | 3 | 4 | 5 | 6 | 7 =>
    simp [interruptReturn, popPc_reg, popFl_reg, popReg_reg, byte_add_add, spReg]

theorem interruptReturn_fl : (interruptReturn s).fl = s.mem.read (s.reg spReg + 7#8) := by
  simp [interruptReturn, popReg_reg, byte_add_add, spReg]

theorem interruptReturn_pc : (interruptReturn s).pc = s.mem.read (s.reg spReg + 8#8) := by
  simp [interruptReturn, popFl_reg, popReg_reg, byte_add_add, spReg]

theorem interruptReturn_bus : (interruptReturn s).bus = s.bus ++ actionAccesses s .iret := by
  simp [interruptReturn, popFl_reg, popReg_reg, byte_add_add, actionAccesses, spReg]

/-! ### the phases of the tick -/

/-- Everything the interrupt phase can do: nothing, or one entry. -/
theorem interruptPhase_cases :
    (interruptToEnter s = none ∧ interruptPhase s = s) ∨
    ∃ i, interruptToEnter s = some i ∧ interruptPhase s = interruptEntry i s := by
  cases h : interruptToEnter s with
  | none => exact .inl ⟨rfl, by simp [interruptPhase, h]⟩
  | some i => exact .inr ⟨i, rfl, by simp [interruptPhase, h]⟩

/-- The state in which the action runs: the opcode in IR, three reads in the history, nothing else changed. -/
theorem readOperands_fetchOpcode :
    readOperands (fetchOpcode s) = ((s.mem.read (s.pc + 1), s.mem.read (s.pc + 2)), afterFetch s) := by
  simp [readOperands, memRead, fetchOpcode, afterFetch, readOf]

/-- Everything steps 2 to 6 can do: a miss in the dispatch table, or the row's action and the advance. -/
theorem instructionPhase_cases :
    (lookupOpcode (s.mem.read s.pc) = none ∧
      instructionPhase s = .next (raiseFatal .invalidOpcode (s.mem.read s.pc) (fetchOpcode s))) ∨
    ∃ row, lookupOpcode (s.mem.read s.pc) = some row ∧
      instructionPhase s =
        execThenAdvance (row.build (s.mem.read (s.pc + 1)) (s.mem.read (s.pc + 2))) (afterFetch s) := by
  unfold instructionPhase
  simp only [readOperands_fetchOpcode, fetchOpcode_ir]
  cases h : lookupOpcode (s.mem.read s.pc) with
  | none => exact .inl ⟨rfl, rfl⟩
  | some row => exact .inr ⟨row, rfl, rfl⟩

/-- If steps 5 and 6 answer a next state, the action did, and step 6 finished it. -/
theorem execThenAdvance_next {j : Instr} {t : State} (h : execThenAdvance j s = .next t) :
    ∃ u, exec j s = .next u ∧ t = finishTick u := by
  unfold execThenAdvance at h
  cases e : exec j s with
  | next u => exact ⟨u, rfl, by simpa [e, eq_comm] using h⟩
  | fault r => simp [e] at h
  | refused r => simp [e] at h

/-- Step 6 touches nothing but PC. -/
theorem finishTick_cases :
    finishTick s = s ∨ finishTick s = s.setPc (s.pc + 1 + operandCountOf s.ir) := by
  unfold finishTick advancePc
  split
  · exact .inl rfl
  · split
    · exact .inl rfl
    · exact .inr rfl

/-- A tick of a running core is its two phases. -/
theorem tick_running (h : s.run = .running) : tick s = instructionPhase (interruptPhase s) := by
  simp [tick, h]

/-- A tick of a halted core changes nothing. -/
theorem tick_halted (h : s.run = .halted) : tick s = .next s := by
  simp [tick, h]

/-- With nothing due, delivery only moves the schedule on by one boundary. -/
theorem deliverInputs_nothing_due (h : s.dueInputs = []) :
    deliverInputs s = { s with inputs := s.inputs.tail } := by
  simp [deliverInputs, h]

/-- Every external event leaves memory in canonical form. -/
theorem applyInput_wf {s : State} (e : Input) (h : s.mem.wf) : (applyInput s e).mem.wf := by
  cases e with
  | raiseInterrupt i => exact h
  | poke a v => exact write_wf a v h
  | deviceWrite a v => exact write_wf a v h
  | reset => exact h

/-- So does the delivery of all that are due. -/
theorem deliverInputs_wf {s : State} (h : s.mem.wf) : (deliverInputs s).mem.wf := by
  unfold deliverInputs
  generalize s.dueInputs = events
  have h0 : ({ s with inputs := s.inputs.tail } : State).mem.wf := h
  generalize ({ s with inputs := s.inputs.tail } : State) = u at h0
  induction events generalizing u with
  | nil => exact h0
  | cons e rest ih => exact ih _ (applyInput_wf e h0)

/-- Interrupt entry leaves memory in canonical form. -/
theorem interruptEntry_wf {s : State} (i : Line) (h : s.mem.wf) : (interruptEntry i s).mem.wf := by
  rw [interruptEntry_mem, saveContext_mem]
  exact write_wf _ _ (write_wf _ _ (write_wf _ _ (write_wf _ _ (write_wf _ _ (write_wf _ _ (write_wf _ _
    (write_wf _ _ (write_wf _ _ h))))))))

end Sys2Proof.Machine
end

