-- ==== Sys2Proof/Laws/PerInstr.lean ====
section
/-! SUPPORT. The family WordShape: the encoding of an instruction has the length its opcode byte gives
(30_encoding.md R93) and the opcode's two fields are those of its format and of its use of PC (R94, R95). -/

namespace Sys2Proof.Laws.WordShape

open Sys2Proof

/-- The bytes of an instruction are as many as its opcode says, which are as many as its format has, and SETSPC is its
operation's. -/
def Statement (i : Instr) : Prop :=
  (encode i).length = lengthOf (opcodeOf i) ∧
  (operandCountOf (opcodeOf i)).toNat = i.mnemonic.format.operandCount ∧
  setsPcBit (opcodeOf i) = i.mnemonic.setsPc

/-- The one computation behind every member of the family. -/
theorem word_shape (i : Instr) : Statement i := by
  refine ⟨?_, ?_, ?_⟩
  · simp only [encode, List.length_cons, operandBytes_length, lengthOf, Nat.add_comm]
  · cases i <;> simp [operandCountOf, opcodeOf, Instr.mnemonic, Mnemonic.format, Format.operandCount]
  · cases i <;> simp [setsPcBit, opcodeOf, Instr.mnemonic, Mnemonic.setsPc]

theorem nop : Statement (Instr.nop) := word_shape _
theorem hlt : Statement (Instr.hlt) := word_shape _
theorem ret : Statement (Instr.ret) := word_shape _
theorem iret : Statement (Instr.iret) := word_shape _
theorem int (a : Byte) : Statement (Instr.int a) := word_shape _
theorem push (a : Byte) : Statement (Instr.push a) := word_shape _
theorem pop (a : Byte) : Statement (Instr.pop a) := word_shape _
theorem prn (a : Byte) : Statement (Instr.prn a) := word_shape _
theorem pra (a : Byte) : Statement (Instr.pra a) := word_shape _
theorem call (a : Byte) : Statement (Instr.call a) := word_shape _
theorem jmp (a : Byte) : Statement (Instr.jmp a) := word_shape _
theorem jeq (a : Byte) : Statement (Instr.jeq a) := word_shape _
theorem jne (a : Byte) : Statement (Instr.jne a) := word_shape _
theorem jgt (a : Byte) : Statement (Instr.jgt a) := word_shape _
theorem jlt (a : Byte) : Statement (Instr.jlt a) := word_shape _
theorem jle (a : Byte) : Statement (Instr.jle a) := word_shape _
theorem jge (a : Byte) : Statement (Instr.jge a) := word_shape _
theorem inc (a : Byte) : Statement (Instr.inc a) := word_shape _
theorem dec (a : Byte) : Statement (Instr.dec a) := word_shape _
theorem not (a : Byte) : Statement (Instr.not a) := word_shape _
theorem ldi (a b : Byte) : Statement (Instr.ldi a b) := word_shape _
theorem ld (a b : Byte) : Statement (Instr.ld a b) := word_shape _
theorem st (a b : Byte) : Statement (Instr.st a b) := word_shape _
theorem add (a b : Byte) : Statement (Instr.add a b) := word_shape _
theorem sub (a b : Byte) : Statement (Instr.sub a b) := word_shape _
theorem mul (a b : Byte) : Statement (Instr.mul a b) := word_shape _
theorem div (a b : Byte) : Statement (Instr.div a b) := word_shape _
theorem mod (a b : Byte) : Statement (Instr.mod a b) := word_shape _
theorem cmp (a b : Byte) : Statement (Instr.cmp a b) := word_shape _
theorem and (a b : Byte) : Statement (Instr.and a b) := word_shape _
theorem or (a b : Byte) : Statement (Instr.or a b) := word_shape _
theorem xor (a b : Byte) : Statement (Instr.xor a b) := word_shape _
theorem shl (a b : Byte) : Statement (Instr.shl a b) := word_shape _
theorem shr (a b : Byte) : Statement (Instr.shr a b) := word_shape _

end Sys2Proof.Laws.WordShape
end

