-- ==== Sys2Proof/Laws/Step.lean ====
section
/-! SUPPORT. The step as a whole: what IRET answers, what every action does to the access history, to PC and to the form
of memory, what step 6 leaves alone, and a step with nothing due. -/

namespace Sys2Proof.Machine

open Sys2Proof.Safety

/-- IRET answers the return from an interrupt; said as an equation so that no proof computes it. -/
theorem iret_next {s t : State} (h : exec .iret s = .next t) : t = interruptReturn s := by
  have e : exec .iret s = .next (interruptReturn s) := rfl
  rw [e] at h
  injection h with h
  exact h.symm

/-! ### step 6 -/

@[simp] theorem finishTick_reg (s : State) (q : Reg) : (finishTick s).reg q = s.reg q := by
  rcases finishTick_cases s with e | e <;> rw [e] <;> rfl

@[simp] theorem finishTick_ir (s : State) : (finishTick s).ir = s.ir := by
  rcases finishTick_cases s with e | e <;> rw [e] <;> rfl

@[simp] theorem finishTick_fl (s : State) : (finishTick s).fl = s.fl := by
  rcases finishTick_cases s with e | e <;> rw [e] <;> rfl

@[simp] theorem finishTick_ie (s : State) : (finishTick s).ie = s.ie := by
  rcases finishTick_cases s with e | e <;> rw [e] <;> rfl

@[simp] theorem finishTick_run (s : State) : (finishTick s).run = s.run := by
  rcases finishTick_cases s with e | e <;> rw [e] <;> rfl

@[simp] theorem finishTick_cause (s : State) : (finishTick s).cause = s.cause := by
  rcases finishTick_cases s with e | e <;> rw [e] <;> rfl

@[simp] theorem finishTick_info (s : State) : (finishTick s).info = s.info := by
  rcases finishTick_cases s with e | e <;> rw [e] <;> rfl

@[simp] theorem finishTick_mem (s : State) : (finishTick s).mem = s.mem := by
  rcases finishTick_cases s with e | e <;> rw [e] <;> rfl

@[simp] theorem finishTick_trace (s : State) : (finishTick s).trace = s.trace := by
  rcases finishTick_cases s with e | e <;> rw [e] <;> rfl

@[simp] theorem finishTick_signals (s : State) : (finishTick s).signals = s.signals := by
  rcases finishTick_cases s with e | e <;> rw [e] <;> rfl

@[simp] theorem finishTick_bus (s : State) : (finishTick s).bus = s.bus := by
  rcases finishTick_cases s with e | e <;> rw [e] <;> rfl

@[simp] theorem finishTick_inputs (s : State) : (finishTick s).inputs = s.inputs := by
  rcases finishTick_cases s with e | e <;> rw [e] <;> rfl

/-! ### every action -/

/-- The accesses of every action are those of the table of 20_memory.md R66. -/
theorem exec_bus (i : Instr) (s t : State) (h : exec i s = .next t) : t.bus = s.bus ++ actionAccesses s i := by
  cases i
  case nop | hlt => cases h; simp [actionAccesses]
  case ret => cases h; simp [actionAccesses]
  case iret => obtain rfl := iret_next h; exact interruptReturn_bus s
  case div | mod =>
    obtain ⟨-, -, rfl⟩ := withRegs_next h
    split <;> simp [actionAccesses]
  case jeq | jne | jgt | jlt | jle | jge =>
    obtain ⟨-, rfl⟩ := withReg_next h
    split <;> simp [actionAccesses]
  case int | push | pop | prn | pra | call | jmp | inc | dec | not | ldi =>
    obtain ⟨-, rfl⟩ := withReg_next h
    simp [actionAccesses]
  all_goals
    obtain ⟨-, -, rfl⟩ := withRegs_next h
    simp [actionAccesses, effectiveAddress, readOf]

/-- An action whose opcode has SETSPC clear leaves PC. -/
theorem exec_pc (i : Instr) (s t : State) (h : exec i s = .next t)
    (hp : (opcodeOf i).getLsbD 4 = false) : t.pc = s.pc := by
  cases i
  case ret | iret | call | jmp | jeq | jne | jgt | jlt | jle | jge => simp [opcodeOf] at hp
  case nop | hlt => cases h; rfl
  case div | mod =>
    obtain ⟨-, -, rfl⟩ := withRegs_next h
    split <;> simp
  case int | push | pop | prn | pra | inc | dec | not | ldi =>
    obtain ⟨-, rfl⟩ := withReg_next h
    simp
  all_goals
    obtain ⟨-, -, rfl⟩ := withRegs_next h
    simp

/-- Every action leaves memory in canonical form. -/
theorem exec_wf (i : Instr) (s t : State) (h : exec i s = .next t) (hw : s.mem.wf) : t.mem.wf := by
  cases i
  case nop | hlt | ret => cases h; exact hw
  case iret => obtain rfl := iret_next h; simpa using hw
  case div | mod =>
    obtain ⟨-, -, rfl⟩ := withRegs_next h
    split <;> exact hw
  case jeq | jne | jgt | jlt | jle | jge =>
    obtain ⟨-, rfl⟩ := withReg_next h
    split <;> exact hw
  case push | call =>
    obtain ⟨-, rfl⟩ := withReg_next h
    exact write_wf _ _ hw
  case int | pop | prn | pra | jmp | inc | dec | not | ldi =>
    obtain ⟨-, rfl⟩ := withReg_next h
    exact hw
  case st =>
    obtain ⟨-, -, rfl⟩ := withRegs_next h
    exact write_wf _ _ hw
  all_goals
    obtain ⟨-, -, rfl⟩ := withRegs_next h
    exact hw

/-- An action changes no byte of memory it does not store to. -/
theorem exec_read_of_no_write (i : Instr) (s t : State) (a : Byte) (h : exec i s = .next t)
    (hn : ∀ c, BusAccess.write a c ∉ actionAccesses s i) : t.mem.read a = s.mem.read a := by
  cases i
  case nop | hlt | ret => cases h; rfl
  case iret => obtain rfl := iret_next h; rw [interruptReturn_mem]
  case div | mod =>
    obtain ⟨-, -, rfl⟩ := withRegs_next h
    split <;> rfl
  case jeq | jne | jgt | jlt | jle | jge =>
    obtain ⟨-, rfl⟩ := withReg_next h
    split <;> rfl
  case push | call =>
    obtain ⟨-, rfl⟩ := withReg_next h
    exact read_write_ne _ _ fun e => hn _ (by rw [e]; exact List.mem_singleton.mpr rfl)
  case int | pop | prn | pra | jmp | inc | dec | not | ldi =>
    obtain ⟨-, rfl⟩ := withReg_next h
    rfl
  case st =>
    obtain ⟨-, -, rfl⟩ := withRegs_next h
    exact read_write_ne _ _ fun e => hn _ (by rw [e]; exact List.mem_singleton.mpr rfl)
  all_goals
    obtain ⟨-, -, rfl⟩ := withRegs_next h
    rfl

/-- Each of the nine pushed bytes stands where it was pushed. -/
theorem interruptEntry_read_of_entryWrites {i : Line} {s : State} {a b : Byte}
    (h : BusAccess.write a b ∈ entryWrites i s) : (interruptEntry i s).mem.read a = b := by
  have e (j k : Byte) : (s.reg 7 - j = s.reg 7 - k) ↔ j = k := by
    constructor
    · intro h; bv_omega
    · rintro rfl; rfl
  suffices key : ∀ w ∈ entryWrites i s, ∀ x y, w = .write x y → (interruptEntry i s).mem.read x = y from
    key _ h a b rfl
  simp only [entryWrites, List.forall_mem_cons, List.not_mem_nil, false_implies, implies_true, and_true,
    BusAccess.write.injEq, interruptEntry_mem, saveContext_read, acknowledge_reg, isReg, spReg, setIe_reg]
  and_intros
  all_goals
    intro x y hw
    simp [← hw.1, ← hw.2, e]

/-! ### the step -/

/-- A step whose core runs once the events of its boundary have landed is the two phases of the tick. -/
theorem step_running {s : State} (hr : (deliverInputs s).run = .running) :
    step s = instructionPhase (interruptPhase (deliverInputs s)) := tick_running _ hr

/-- With nothing due, a step of a running core is the two phases of the tick. -/
theorem step_quiet {s : State} (hr : s.run = .running) (hd : s.dueInputs = []) :
    step s = instructionPhase (interruptPhase { s with inputs := s.inputs.tail }) := by
  have e : tick { s with inputs := s.inputs.tail } =
      instructionPhase (interruptPhase { s with inputs := s.inputs.tail }) := tick_running _ hr
  rw [step, deliverInputs_nothing_due s hd, e]

/-- The interrupt phase never stops or starts the core. -/
theorem interruptPhase_run (s : State) : (interruptPhase s).run = s.run := by
  rcases interruptPhase_cases s with ⟨-, e⟩ | ⟨i, -, e⟩ <;> simp [e]

/-- Three bytes that decode are a row of the dispatch table and its two operand bytes. -/
theorem decode_three {b0 b1 b2 : Byte} {i : Instr} {rest : List Byte} (h : decode [b0, b1, b2] = .ok (i, rest)) :
    ∃ row, lookupOpcode b0 = some row ∧ i = row.build b1 b2 := by
  simp only [decode] at h
  cases hl : lookupOpcode b0 with
  | none => simp [hl] at h
  | some row =>
    simp only [hl] at h
    split at h
    · cases h
    · split at h
      · simp at h; exact ⟨row, rfl, h.1.symm⟩
      · cases h

end Sys2Proof.Machine
end

