-- ==== Sys2Proof/Tests/Slice0.lean ====
section
/-! SUPPORT. The model's own tests: ill-formed terms the check refuses, words written out from the spec's encodings, the
spec's own vectors (95_test_vectors.md), one tick each, and for each obligation with hypotheses a state that meets them. -/

namespace Sys2Proof.Tests

open Sys2Proof Sys2Proof.Machine Sys2Proof.Safety

/-! ## Well-formedness (30_encoding.md R96): a byte above 7 in each position of each format is refused -/

theorem test_wf_r_format : (Instr.push 8#8).wellFormed = false ∧ (Instr.jeq 0xFF#8).wellFormed = false ∧
    (Instr.not 0x10#8).wellFormed = false ∧ (Instr.int 8#8).wellFormed = false := by decide

theorem test_wf_rr_format_a : (Instr.add 8#8 0#8).wellFormed = false ∧ (Instr.ld 9#8 7#8).wellFormed = false := by
  decide

theorem test_wf_rr_format_b : (Instr.add 0#8 8#8).wellFormed = false ∧ (Instr.st 7#8 0x80#8).wellFormed = false := by
  decide

theorem test_wf_ri_format : (Instr.ldi 8#8 0#8).wellFormed = false ∧ (Instr.ldi 7#8 0xFF#8).wellFormed = true := by
  decide

theorem test_wf_boundary : (Instr.shr 7#8 7#8).wellFormed = true ∧ Instr.nop.wellFormed = true := by decide

/-! ## Decoding: words written out from the table of 30_encoding.md R98, bit by bit, operands of 30_encoding.md R95 -/

/-- What the decoder accepts, and why it rejects. -/
def accepted (bytes : List Byte) : Option (Instr × List Byte) :=
  match decode bytes with
  | .ok r => some r
  | .error _ => none

def rejected (bytes : List Byte) : Option Reject :=
  match decode bytes with
  | .ok _ => none
  | .error e => some e

theorem test_decode_z : accepted [0b00000000#8] = some (.nop, []) ∧ accepted [0b00000001#8] = some (.hlt, []) ∧
    accepted [0b00010001#8] = some (.ret, []) ∧ accepted [0b00010011#8] = some (.iret, []) := by decide

theorem test_decode_stack_output : accepted [0b01000010#8, 0x05#8] = some (.int 5#8, []) ∧
    accepted [0b01000101#8, 0x01#8] = some (.push 1#8, []) ∧ accepted [0b01000110#8, 0x07#8] = some (.pop 7#8, []) ∧
    accepted [0b01000111#8, 0x02#8] = some (.prn 2#8, []) ∧ accepted [0b01001000#8, 0x03#8] = some (.pra 3#8, []) := by
  decide

theorem test_decode_jumps : accepted [0b01010000#8, 0x01#8] = some (.call 1#8, []) ∧
    accepted [0b01010100#8, 0x02#8] = some (.jmp 2#8, []) ∧ accepted [0b01010101#8, 0x03#8] = some (.jeq 3#8, []) ∧
    accepted [0b01010110#8, 0x04#8] = some (.jne 4#8, []) ∧ accepted [0b01010111#8, 0x05#8] = some (.jgt 5#8, []) ∧
    accepted [0b01011000#8, 0x06#8] = some (.jlt 6#8, []) ∧ accepted [0b01011001#8, 0x07#8] = some (.jle 7#8, []) ∧
    accepted [0b01011010#8, 0x00#8] = some (.jge 0#8, []) := by decide

theorem test_decode_unary : accepted [0b01100101#8, 0x02#8] = some (.inc 2#8, []) ∧
    accepted [0b01100110#8, 0x03#8] = some (.dec 3#8, []) ∧ accepted [0b01101001#8, 0x04#8] = some (.not 4#8, []) := by
  decide

theorem test_decode_data : accepted [0b10000010#8, 0x07#8, 0x80#8] = some (.ldi 7#8 0x80#8, []) ∧
    accepted [0b10000011#8, 0x03#8, 0x02#8] = some (.ld 3#8 2#8, []) ∧
    accepted [0b10000100#8, 0x02#8, 0x00#8] = some (.st 2#8 0#8, []) := by decide

theorem test_decode_alu_arithmetic : accepted [0b10100000#8, 0x00#8, 0x01#8] = some (.add 0#8 1#8, []) ∧
    accepted [0b10100001#8, 0x02#8, 0x03#8] = some (.sub 2#8 3#8, []) ∧
    accepted [0b10100010#8, 0x04#8, 0x05#8] = some (.mul 4#8 5#8, []) ∧
    accepted [0b10100011#8, 0x06#8, 0x07#8] = some (.div 6#8 7#8, []) ∧
    accepted [0b10100100#8, 0x01#8, 0x00#8] = some (.mod 1#8 0#8, []) ∧
    accepted [0b10100111#8, 0x03#8, 0x02#8] = some (.cmp 3#8 2#8, []) := by decide

theorem test_decode_alu_logic : accepted [0b10101000#8, 0x00#8, 0x01#8] = some (.and 0#8 1#8, []) ∧
    accepted [0b10101010#8, 0x02#8, 0x03#8] = some (.or 2#8 3#8, []) ∧
    accepted [0b10101011#8, 0x04#8, 0x05#8] = some (.xor 4#8 5#8, []) ∧
    accepted [0b10101100#8, 0x06#8, 0x07#8] = some (.shl 6#8 7#8, []) ∧
    accepted [0b10101101#8, 0x01#8, 0x00#8] = some (.shr 1#8 0#8, []) := by decide

/-- 30_encoding.md R102: what follows the last operand is no part of the instruction. -/
theorem test_decode_leaves_the_rest : accepted [0x00#8, 0xFF#8, 0xFF#8] = some (.nop, [0xFF#8, 0xFF#8]) ∧
    accepted [0x65#8, 0x02#8, 0x99#8] = some (.inc 2#8, [0x99#8]) := by decide

/-- The illegal bytes of V-D79, one per neighbourhood of the map. -/
theorem test_decode_illegal : ([0x02, 0x10, 0x12, 0x40, 0x41, 0x43, 0x44, 0x49, 0x51, 0x52, 0x53, 0x5B, 0x64, 0x67, 0x68,
    0x80, 0x81, 0x85, 0xA5, 0xA6, 0xA9, 0xAE, 0xC0, 0xFF] : List Byte).all
      (fun op => rejected [op, 0#8, 0#8] = some (.illegalOpcode op)) = true := by decide

/-- V-D80: a register byte above 7 is rejected by name. -/
theorem test_decode_register_eight :
    rejected [0xA0#8, 0x00#8, 0x08#8] = some (.registerOperandAboveSeven (.add 0#8 8#8)) ∧
    rejected [0xA0#8, 0x00#8] = some .truncated := by decide

/-- The table's numbering: bit 0 is the least significant bit of the first byte. -/
theorem test_decode_table_word : decodeTableWord 24 0x0100A0 = some (.add 0#8 1#8) ∧
    decodeTableWord 8 0x11 = some .ret ∧ decodeTableWord 16 0xFF0545 = some (.push 5#8) := by decide

/-! ## The spec's vectors, one tick each -/

/-- A state that differs from reset in registers 0 and 1, with bytes stored at 0x10 and PC there. -/
def start (bytes : List Byte) (x0 x1 : Byte) : State :=
  storeBytes bytes 0x10#8 (((State.reset.setPc 0x10#8).setReg 0 x0).setReg 1 x1)

/-- What a look at the next state sees; nothing where the outcome is no next state. -/
def look {α : Type} (o : Host.Outcome State Fault Refusal) (f : State → α) : Option α :=
  match o with
  | .next t => some (f t)
  | .fault _ => none
  | .refused _ => none

/-- The refusal, where the outcome is one. -/
def refusal (o : Host.Outcome State Fault Refusal) : Option Refusal :=
  match o with
  | .next _ => none
  | .fault _ => none
  | .refused r => some r

/-- Register 0 and PC after one tick of a two-operand instruction on R0, R1. -/
def alu (op x0 x1 : Byte) : Option (Byte × Byte) :=
  look (step (start [op, 0x00#8, 0x01#8] x0 x1)) fun t => (t.reg 0, t.pc)

theorem test_add : alu 0xA0#8 250#8 10#8 = some (4#8, 0x13#8) ∧ alu 0xA0#8 0x80#8 0x80#8 = some (0x00#8, 0x13#8) := by
  decide

theorem test_sub : alu 0xA1#8 3#8 5#8 = some (254#8, 0x13#8) := by decide

theorem test_mul : alu 0xA2#8 0xFF#8 0xFF#8 = some (1#8, 0x13#8) ∧ alu 0xA2#8 0xC8#8 3#8 = some (0x58#8, 0x13#8) := by
  decide

theorem test_div : alu 0xA3#8 0xFF#8 2#8 = some (0x7F#8, 0x13#8) := by decide

/-- V-D14. -/
theorem test_div_by_zero : look (step (start [0xA3#8, 0x00#8, 0x01#8] 7#8 0#8))
    (fun t => (t.reg 0, t.pc, t.run, t.cause, t.info)) =
    some (7#8, 0x10#8, RunState.halted, Cause.divZero, 0xA3#8) := by decide

theorem test_mod : alu 0xA4#8 0xC8#8 7#8 = some (4#8, 0x13#8) := by decide

/-- V-D19. -/
theorem test_mod_by_zero : look (step (start [0xA4#8, 0x00#8, 0x01#8] 7#8 0#8))
    (fun t => (t.reg 0, t.pc, t.signals)) =
    some (7#8, 0x10#8, [Signal.diag .divZero 0xA4#8, Signal.stop]) := by decide

theorem test_and : alu 0xA8#8 0xCC#8 0xAA#8 = some (0x88#8, 0x13#8) := by decide
theorem test_or : alu 0xAA#8 0xCC#8 0xAA#8 = some (0xEE#8, 0x13#8) := by decide
theorem test_xor : alu 0xAB#8 0x5A#8 0xFF#8 = some (0xA5#8, 0x13#8) := by decide

theorem test_shl : alu 0xAC#8 0x81#8 1#8 = some (0x02#8, 0x13#8) ∧ alu 0xAC#8 0x0F#8 0xFF#8 = some (0x80#8, 0x13#8) := by
  decide

theorem test_shr : alu 0xAD#8 0x81#8 1#8 = some (0x40#8, 0x13#8) ∧ alu 0xAD#8 0xF0#8 8#8 = some (0xF0#8, 0x13#8) := by
  decide

/-- Register 0 and PC after one tick of a one-operand instruction on R0. -/
def unary (op x0 : Byte) : Option (Byte × Byte) := look (step (start [op, 0x00#8] x0 0#8)) fun t => (t.reg 0, t.pc)

theorem test_inc : unary 0x65#8 0xFF#8 = some (0x00#8, 0x12#8) := by decide
theorem test_dec : unary 0x66#8 0x00#8 = some (0xFF#8, 0x12#8) := by decide
theorem test_not : unary 0x69#8 0x0F#8 = some (0xF0#8, 0x12#8) := by decide

/-- FL after CMP R0, R1 from FL = 0xF8. -/
def cmp (x0 x1 : Byte) : Option Byte := look (step ((start [0xA7#8, 0x00#8, 0x01#8] x0 x1).setFl 0xF8#8)) fun t => t.fl

/-- V-D38, V-D39, V-D40. -/
theorem test_cmp : cmp 5#8 5#8 = some 0xF9#8 ∧ cmp 0x80#8 0x7F#8 = some 0xFA#8 ∧ cmp 0#8 0xFF#8 = some 0xFC#8 := by
  decide

/-- PC after a jump through R0 = 0x40 at 0x10, for each of the eight values of FL bits 2:0 (V-D30). -/
def jumps (op : Byte) : List (Option Byte) :=
  ([0, 1, 2, 3, 4, 5, 6, 7] : List Byte).map fun fl => look (step ((start [op, 0x00#8] 0x40#8 0#8).setFl fl)) fun t => t.pc

/-- Taken goes to 0x40, not taken to 0x12. -/
def taken (pattern : List Bool) : List (Option Byte) := pattern.map fun b => some (if b then 0x40#8 else 0x12#8)

theorem test_jeq : jumps 0x55#8 = taken [false, true, false, true, false, true, false, true] := by decide
theorem test_jne : jumps 0x56#8 = taken [true, false, true, false, true, false, true, false] := by decide
theorem test_jgt : jumps 0x57#8 = taken [false, false, true, true, false, false, true, true] := by decide
theorem test_jge : jumps 0x5A#8 = taken [false, true, true, true, false, true, true, true] := by decide
theorem test_jlt : jumps 0x58#8 = taken [false, false, false, false, true, true, true, true] := by decide
theorem test_jle : jumps 0x59#8 = taken [false, true, false, true, true, true, true, true] := by decide
theorem test_jmp : jumps 0x54#8 = taken [true, true, true, true, true, true, true, true] := by decide

/-- V-D45 and V-D47. -/
theorem test_call : look (step (start [0x50#8, 0x01#8] 0#8 0x20#8)) (fun t => (t.mem.read 0xF3#8, t.reg 7, t.pc)) =
      some (0x12#8, 0xF3#8, 0x20#8) ∧
    look (step (start [0x50#8, 0x07#8] 0#8 0#8)) (fun t => (t.mem.read 0xF3#8, t.reg 7, t.pc)) =
      some (0x12#8, 0xF3#8, 0xF3#8) := by decide

/-- V-D48. -/
theorem test_ret : look (step ((externalWrite 0xF3#8 0x08#8 (start [0x11#8] 0#8 0#8)).setReg 7 0xF3#8))
    (fun t => (t.pc, t.reg 7)) = some (0x08#8, 0xF4#8) := by decide

/-- V-D50 and V-D51. -/
theorem test_push : look (step ((start [0x45#8, 0x01#8] 0#8 0xAB#8).setReg 7 0#8)) (fun t => (t.mem.read 0xFF#8, t.reg 7)) =
      some (0xAB#8, 0xFF#8) ∧
    look (step (start [0x45#8, 0x07#8] 0#8 0#8)) (fun t => (t.mem.read 0xF3#8, t.reg 7, t.pc)) =
      some (0xF4#8, 0xF3#8, 0x12#8) := by decide

/-- V-D53 and V-D54. -/
theorem test_pop : look (step ((externalWrite 0xFF#8 0x77#8 (start [0x46#8, 0x00#8] 0#8 0#8)).setReg 7 0xFF#8))
      (fun t => (t.reg 0, t.reg 7)) = some (0x77#8, 0x00#8) ∧
    look (step ((externalWrite 0xF3#8 0x80#8 (start [0x46#8, 0x07#8] 0#8 0#8)).setReg 7 0xF3#8)) (fun t => t.reg 7) =
      some 0x80#8 := by decide

/-- V-D56. -/
theorem test_int : look (step ((start [0x42#8, 0x00#8] 3#8 0#8).setReg 5 0x80#8)) (fun t => (t.reg 5, t.reg 6, t.ie, t.pc)) =
    some (0x83#8, 0x00#8, true, 0x12#8) := by decide

/-- V-D59: the frame of V-S5, restored. -/
theorem test_iret : look (step (storeBytes [0x00#8, 0x01#8, 0x55#8, 0x44#8, 0x33#8, 0x22#8, 0x11#8, 0x02#8, 0x10#8] 0xEB#8
      ((start [0x13#8] 0#8 0#8).setReg 7 0xEB#8)))
    (fun t => ([t.reg 0, t.reg 1, t.reg 2, t.reg 3, t.reg 4, t.reg 5, t.reg 6, t.reg 7], t.fl, t.pc, t.ie)) =
    some ([0x11#8, 0x22#8, 0x33#8, 0x44#8, 0x55#8, 0x01#8, 0x00#8, 0xF4#8], 0x02#8, 0x10#8, true) := by decide

/-- V-D69. -/
theorem test_ld : look (step (externalWrite 0x80#8 0x0E#8 (start [0x83#8, 0x03#8, 0x01#8] 0#8 0x80#8)))
    (fun t => (t.reg 3, t.reg 1, t.pc)) = some (0x0E#8, 0x80#8, 0x13#8) := by decide

/-- V-D72, with the address in R1. -/
theorem test_st : look (step (start [0x84#8, 0x01#8, 0x00#8] 0x50#8 0xF8#8)) (fun t => (t.mem.read 0xF8#8, t.reg 0, t.pc)) =
    some (0x50#8, 0x50#8, 0x13#8) := by decide

/-- V-D67, V-D68. -/
theorem test_ldi : look (step (start [0x82#8, 0x07#8, 0x80#8] 0#8 0#8)) (fun t => (t.reg 7, t.pc)) =
    some (0x80#8, 0x13#8) := by decide

/-- V-D73, V-D74. -/
theorem test_prn : look (step (start [0x47#8, 0x00#8] 0x48#8 0#8)) (fun t => (t.trace, t.pc)) =
    some ([⟨.num, 72#8⟩], 0x12#8) := by decide
theorem test_pra : look (step (start [0x48#8, 0x00#8] 0x48#8 0#8)) (fun t => (t.trace, t.pc)) =
    some ([⟨.chr, 0x48#8⟩], 0x12#8) := by decide

/-- V-D75. -/
theorem test_nop : look (step (start [0x00#8] 0#8 0#8)) (fun t => (t.ir, t.pc, t.run)) =
    some (0x00#8, 0x11#8, RunState.running) := by decide

/-- V-D76, at 0x10. -/
theorem test_hlt : look (step (start [0x01#8] 0#8 0#8)) (fun t => (t.run, t.cause, t.pc, t.signals)) =
    some (RunState.halted, Cause.hlt, 0x11#8, [Signal.stop]) := by decide

/-- V-D77: the operands of an instruction at 0xFF are at 0x00 and 0x01. -/
theorem test_wrap_at_the_top : look (step ((((storeBytes [0xA0#8, 0x00#8, 0x01#8] 0xFF#8 State.reset).setPc 0xFF#8).setReg 0
      2#8).setReg 1 3#8)) (fun t => (t.reg 0, t.pc)) = some (5#8, 0x02#8) := by decide

/-- P5b: an unknown byte halts before its operands are read. -/
theorem test_invalid_opcode : look (step (externalWrite 0#8 0xFF#8 State.reset))
    (fun t => (t.run, t.cause, t.info, t.ir, t.pc)) =
      some (RunState.halted, Cause.invalidOpcode, 0xFF#8, 0xFF#8, 0x00#8) ∧
    look (step (externalWrite 0#8 0xFF#8 State.reset)) (fun t => (t.bus, t.signals)) =
      some ([BusAccess.read 0x00#8 0xFF#8], [Signal.diag .invalidOpcode 0xFF#8, Signal.stop]) := by decide

/-- V-D80: the tick refuses a register byte above 7. -/
theorem test_register_eight_is_refused :
    refusal (step (start [0xA0#8, 0x00#8, 0x08#8] 0#8 0#8)) = some (.registerOperandAboveSeven 8#8) := by decide

/-! ## Interrupts -/

/-- The vectors of V-D60 at 0xF8, and PC at 0x10. -/
def vectored (im is : Byte) : State :=
  storeBytes [0x50#8, 0x58#8, 0x60#8, 0x68#8, 0x70#8, 0x78#8, 0x80#8, 0x88#8] 0xF8#8
    (((State.reset.setPc 0x10#8).setReg 5 im).setReg 6 is)

/-- V-D60: line 1 wins over line 2; the routine's first instruction runs in the same tick. -/
theorem test_lowest_line_wins : look (step (vectored 0xFF#8 0x06#8))
    (fun t => (t.reg 6, t.ie, t.reg 7, t.mem.read 0xF3#8, t.mem.read 0xEB#8, t.pc)) =
    some (0x04#8, false, 0xEB#8, 0x10#8, 0x04#8, 0x59#8) := by decide

/-- V-D61 and V-D62: nothing eligible, and the gate closed. -/
theorem test_no_entry : look (step (vectored 0x04#8 0x03#8)) (fun t => (t.reg 6, t.pc)) = some (0x03#8, 0x11#8) ∧
    look (step ((vectored 0x01#8 0x01#8).setIe false)) (fun t => (t.reg 6, t.pc)) = some (0x01#8, 0x11#8) := by decide

/-- V-D65: line 7, the last vector. -/
theorem test_line_seven : look (step (vectored 0x80#8 0x80#8)) (fun t => (t.reg 6, t.pc)) = some (0x00#8, 0x89#8) := by
  decide

/-- V-S5: the frame, item by item. -/
theorem test_entry_frame :
    look (step (((((vectored 0x01#8 0x01#8).setReg 0 0x11#8).setReg 1 0x22#8).setReg 4 0x55#8).setFl 0x02#8))
      (fun t => [0xF3#8, 0xF2#8, 0xF1#8, 0xF0#8, 0xEF#8, 0xEE#8, 0xED#8, 0xEC#8, 0xEB#8].map t.mem.read) =
    some [0x10#8, 0x02#8, 0x11#8, 0x22#8, 0x00#8, 0x00#8, 0x55#8, 0x01#8, 0x00#8] := by decide

/-- V-D63 and V-D64, and a raise that lands before its tick. -/
theorem test_raise : ((raiseInterrupt 1 State.reset).reg 6, (raiseInterrupt 1 (raiseInterrupt 1 State.reset)).reg 6) =
      (0x02#8, 0x02#8) ∧
    look (step { State.reset with inputs := [[.raiseInterrupt 7], [.reset]] }) (fun t => (t.reg 6, t.inputs)) =
      some (0x80#8, [[Input.reset]]) := by decide

/-! ## The placing of an instruction -/

theorem test_with_fetch_word :
    look (step (State.reset.withFetchWord 24 0x080082)) (fun t => (t.reg 0, t.pc)) = some (8#8, 0x03#8) ∧
    look (step ((vectored 0xFF#8 0xFF#8).withFetchWord 16 0x0565)) (fun t => (t.reg 5, t.pc)) =
      some (0x00#8, 0x12#8) := by decide

/-! ## Witnesses: for each obligation with hypotheses, a state and operands that meet them together -/

/-- The state after the action of an instruction; used only where the action answers a next state. -/
def done (i : Instr) (s : State) : State := (look (exec i s) id).getD s

/-- DecodeOfEncodeIsTheInstruction. -/
theorem witness_well_formed : (Instr.xor 7#8 0#8).wellFormed = true := by decide

/-- DecodeAcceptsOnlyEncodings, with bytes left over. -/
theorem witness_decode : decode [0x82#8, 0x07#8, 0xFF#8, 0x01#8] = .ok (.ldi 7#8 0xFF#8, [0x01#8]) := rfl

/-- OpcodeMapMeetsItsConstraints: equal opcodes of different instructions, and a row found. -/
theorem witness_opcode_map : opcodeOf (.add 0#8 1#8) = opcodeOf (.add 7#8 7#8) ∧
    (∃ row, lookupOpcode 0xAD#8 = some row) ∧ (∃ row, lookupOpcode 0x00#8 = some row) := ⟨rfl, ⟨_, rfl⟩, ⟨_, rfl⟩⟩

/-- BytesOutsideTheMapAreIllegal: both ends of the range, and an illegal byte below it. -/
theorem witness_illegal : 0xC0 ≤ (0xC0#8).toNat ∧ 0xC0 ≤ (0xFF#8).toNat ∧ isOpcode 0x52#8 = false := by decide

/-- ExecCompletesExactlyOnRegisterBytes: the three clauses, at the bytes 7 and 8. -/
theorem witness_exec_completes : (Instr.add 7#8 7#8).wellFormed = true ∧ (Instr.add 7#8 8#8).wellFormed = false ∧
    ∃ row, lookupOpcode ((start [0xA0#8, 0x00#8, 0x08#8] 0#8 0#8).mem.read 0x10#8) = some row ∧
      (row.build ((start [0xA0#8, 0x00#8, 0x08#8] 0#8 0#8).mem.read 0x11#8)
        ((start [0xA0#8, 0x00#8, 0x08#8] 0#8 0#8).mem.read 0x12#8)).wellFormed = false :=
  ⟨by decide, by decide, _, rfl, by decide⟩

/-- StepRunsTheDecodedInstruction, at the top of memory. -/
theorem witness_step_runs :
    let s := (storeBytes [0xA0#8, 0x00#8, 0x01#8] 0xFF#8 State.reset).setPc 0xFF#8
    s.run = .running ∧ s.dueInputs = [] ∧ interruptToEnter s = none ∧
      decode [s.mem.read s.pc, s.mem.read (s.pc + 1), s.mem.read (s.pc + 2)] = .ok (.add 0#8 1#8, []) :=
  ⟨rfl, rfl, rfl, rfl⟩

/-- StepIsInterruptPhaseThenInstructionPhase: no entry, an entry of the lowest and of the highest line, a halted core. -/
theorem witness_phases : (vectored 0xFF#8 0#8).dueInputs = [] ∧ interruptToEnter (vectored 0xFF#8 0#8) = none ∧
    interruptToEnter (vectored 0x01#8 0x01#8) = some 0 ∧ interruptToEnter (vectored 0x80#8 0x80#8) = some 7 ∧
    (vectored 0x01#8 0x01#8).run = .running ∧ (stopByHalt State.reset).run = .halted ∧
    (stopByHalt State.reset).dueInputs = [] := by decide

/-- PcAdvancesByTheOpcodeFields: a jump, an instruction that runs on, and HLT. -/
theorem witness_pc_advances :
    ({ State.reset with ir := 0x54#8 }).ir = opcodeOf (.jmp 0#8) ∧ (0x54#8).getLsbD 4 = true ∧
    look (exec (.jmp 0#8) { State.reset with ir := 0x54#8 }) (fun t => t.pc) = some 0#8 ∧
    ({ State.reset with ir := 0xA0#8 }).ir = opcodeOf (.add 0#8 1#8) ∧ (0xA0#8).getLsbD 4 = false ∧
    look (exec (.add 0#8 1#8) { State.reset with ir := 0xA0#8 }) (fun t => t.run) = some .running ∧
    ({ State.reset with ir := 0x01#8 }).ir = opcodeOf .hlt ∧ (0x01#8).getLsbD 4 = false ∧
    look (exec .hlt { State.reset with ir := 0x01#8 }) (fun t => t.cause) = some .hlt := by decide

/-- InvalidOpcodeHaltsBeforeTheOperandRead, and V-D66: the same in a tick that enters an interrupt first. -/
theorem witness_invalid_opcode :
    let s := externalWrite 0#8 0xFF#8 State.reset
    let v := externalWrite 0x50#8 0xFF#8 (vectored 1#8 1#8)
    s.run = .running ∧ s.dueInputs = [] ∧ isOpcode ((interruptPhase s).mem.read (interruptPhase s).pc) = false ∧
      v.run = .running ∧ v.dueInputs = [] ∧ interruptToEnter v = some 0 ∧ (interruptPhase v).pc = 0x50#8 ∧
      isOpcode ((interruptPhase v).mem.read 0x50#8) = false := by decide

/-- InvalidOpcodeHaltsBeforeTheOperandRead and OnlyThreeCausesStopTheCore at a boundary where an event lands first: a poke
puts the illegal byte there, or HLT's. -/
theorem witness_halt_after_event :
    let s := { State.reset with inputs := [[.poke 0#8 0xFF#8]] }
    let v := { State.reset with inputs := [[.poke 0#8 0x01#8]] }
    (deliverInputs s).run = .running ∧ isOpcode ((interruptPhase (deliverInputs s)).mem.read 0#8) = false ∧
      (interruptPhase (deliverInputs s)).pc = 0#8 ∧ (deliverInputs v).run = .running ∧
      look (step v) (fun t => t.run) = some .halted := by decide

/-- OnlyThreeCausesStopTheCore: a step that halts for each cause (also test_invalid_opcode, test_hlt, test_div_by_zero). -/
theorem witness_causes : look (step (externalWrite 0#8 0xFF#8 State.reset)) (fun t => t.run) = some .halted ∧
    look (step (externalWrite 0#8 0x01#8 State.reset)) (fun t => t.run) = some .halted ∧
    look (step (storeBytes [0xA4#8, 0x00#8, 0x01#8] 0#8 State.reset)) (fun t => t.run) = some .halted := by decide

/-- EveryMemoryAccessInOrder: no entry, an entry, a valid and an invalid opcode that answer next states. -/
theorem witness_accesses : interruptToEnter State.reset = none ∧ interruptToEnter (vectored 0x80#8 0xFF#8) = some 7 ∧
    isOpcode ((start [0x45#8, 0x01#8] 0#8 0#8).mem.read 0x10#8) = true ∧
    look (instructionPhase (start [0x45#8, 0x01#8] 0#8 0#8)) (fun t => t.bus.length) = some 4 ∧
    isOpcode ((start [0xFF#8] 0#8 0#8).mem.read 0x10#8) = false ∧
    look (instructionPhase (start [0xFF#8] 0#8 0#8)) (fun t => t.bus.length) = some 1 := by decide

/-- FetchIsCoherentWithStores, first clause: ST at 0x10 stores at 0x13, where the next tick fetches. -/
theorem witness_next_fetch :
    let s := { start [] 0x65#8 0x13#8 with ir := 0x84#8 }
    let t := (done (.st 1#8 0#8) s).setPc 0x13#8
    s.run = .running ∧ execThenAdvance (.st (regByte 1) (regByte 0)) s = .next t ∧ t.pc = s.reg 1 ∧ t.dueInputs = [] ∧
      interruptToEnter t = none ∧ look (step t) (fun v => v.ir) = some 0x65#8 :=
  ⟨rfl, rfl, rfl, rfl, rfl, by decide⟩

/-- FetchIsCoherentWithStores, first clause for PUSH at 0x10 with SP one above the next instruction, and for CALL to the
byte it pushes. -/
theorem witness_next_fetch_push_call :
    let s := { (start [] 0x65#8 0#8).setReg 7 0x13#8 with ir := 0x45#8 }
    let t := (done (.push 0#8) s).setPc 0x12#8
    let u := { start [] 0xF3#8 0#8 with ir := 0x50#8 }
    let v := done (.call 0#8) u
    execThenAdvance (.push (regByte 0)) s = .next t ∧ t.pc = s.reg 7 - 1 ∧ t.dueInputs = [] ∧ interruptToEnter t = none ∧
      look (step t) (fun x => x.ir) = some 0x65#8 ∧
      execThenAdvance (.call (regByte 0)) u = .next v ∧ v.pc = u.reg 7 - 1 ∧ v.dueInputs = [] ∧
      interruptToEnter v = none ∧ look (step v) (fun x => x.ir) = some 0x12#8 :=
  ⟨rfl, rfl, rfl, rfl, by decide, rfl, rfl, rfl, rfl, by decide⟩

/-- FetchIsCoherentWithStores, the clauses on interrupt entry: a vector that points at the stacked PC, the first byte of the
frame, and one that points at the stacked FL, from which a NOP runs on to the stacked PC. -/
theorem witness_fetch_of_the_frame :
    let s := externalWrite 0xF8#8 0xF3#8 (vectored 1#8 1#8)
    let u := externalWrite 0xF8#8 0xF2#8 (vectored 1#8 1#8)
    s.run = .running ∧ s.dueInputs = [] ∧ interruptToEnter s = some 0 ∧
      BusAccess.write 0xF3#8 0x10#8 ∈ entryWrites 0 s ∧ (interruptEntry 0 s).pc = 0xF3#8 ∧
      look (step s) (fun t => t.ir) = some 0x10#8 ∧
      interruptToEnter u = some 0 ∧ BusAccess.write 0xF3#8 0x10#8 ∈ entryWrites 0 u ∧
      look (step u) (fun t => t.bus.drop 10) =
        some [.read 0xF2#8 0#8, .read 0xF3#8 0x10#8, .read 0xF4#8 0#8] ∧
      look (step u) (fun t => (t.run, t.dueInputs, t.pc)) = some (.running, [], 0xF3#8) ∧
      look (step u) interruptToEnter = some none := by decide

/-- FetchIsCoherentWithStores, last clause: an ST whose address is its own operand byte. -/
theorem witness_own_operand :
    let u := start [0x84#8, 0x01#8, 0x00#8] 0x65#8 0x11#8
    u.run = .running ∧ u.reg 1 = u.pc + 1 ∧
      [u.mem.read u.pc, u.mem.read (u.pc + 1), u.mem.read (u.pc + 2)] = encode (.st (regByte 1) (regByte 0)) := by decide

/-- InterruptCheckEntersTheLowestEligibleLine: line 0, line 7, the gate closed, nothing eligible. -/
theorem witness_interrupt_check :
    (vectored 0xFF#8 0xFF#8).ie = true ∧
    ((vectored 0xFF#8 0xFF#8).reg 6 &&& (vectored 0xFF#8 0xFF#8).reg 5).getLsbD (0 : Line).val = true ∧
    ((vectored 0xFF#8 0x80#8).reg 6 &&& (vectored 0xFF#8 0x80#8).reg 5).getLsbD (7 : Line).val = true ∧
    (∀ j : Line, j < 7 → ((vectored 0xFF#8 0x80#8).reg 6 &&& (vectored 0xFF#8 0x80#8).reg 5).getLsbD j.val = false) ∧
    ((vectored 1#8 1#8).setIe false).ie = false ∧
    (vectored 0xF0#8 0x0F#8).reg 6 &&& (vectored 0xF0#8 0x0F#8).reg 5 = 0#8 := by decide

/-- InterruptEntrySavesTheContextAndVectors: line 7, with the frame wrapping through address 0. -/
theorem witness_interrupt_entry :
    let s := (vectored 0x80#8 0x80#8).setReg 7 0x04#8
    s.run = .running ∧ interruptToEnter s = some 7 ∧ (interruptEntry 7 s).reg 7 = 0xFB#8 := by decide

/-- IretUndoesInterruptEntry: a routine that changed a register, IS, FL and a byte outside the frame. -/
theorem witness_iret_undoes :
    let s := vectored 0x03#8 0x03#8
    let e := interruptEntry 0 s
    let u := (externalWrite 0x90#8 0x2A#8 (((e.setReg 0 0x99#8).setReg 6 0xFF#8).setFl 0x07#8))
    u.reg 7 = e.reg 7 ∧ (frameCells (s.reg 7)).all (fun a => u.mem.read a == e.mem.read a) = true ∧
      u.reg 0 ≠ s.reg 0 := by decide

/-- InterruptEnableIsHidden. -/
theorem witness_ie : (State.reset.setIe false).ie = false ∧ Instr.add 0#8 0#8 ≠ .iret := by decide

/-- UnmaskedPendingLineIsEnteredNext with every lower line pending but masked. -/
theorem witness_unmasked_over_masked :
    let s := (vectored 0#8 0xFF#8).setReg 0 0x80#8
    s.ie = true ∧ (s.reg 6).getLsbD (7 : Line).val = true ∧ (s.reg 0).getLsbD (7 : Line).val = true ∧
      (∀ j : Line, j < 7 → (s.reg 6 &&& (s.reg 5 ||| s.reg 0)).getLsbD j.val = false) ∧
      look (execThenAdvance (.int (regByte 0)) s) interruptToEnter = some (some 7) := by decide

/-- UnmaskedPendingLineIsEnteredNext, for line 0 and line 7. -/
theorem witness_unmasked :
    look (execThenAdvance (.int (regByte 0)) ((vectored 0#8 0x80#8).setReg 0 0x80#8)) interruptToEnter = some (some 7) ∧
    ((vectored 0#8 0x80#8).setReg 0 0x80#8).ie = true ∧ (0x80#8).getLsbD (7 : Line).val = true ∧
    (∀ j : Line, j < 7 → (0x80#8).getLsbD j.val = false) ∧
    look (execThenAdvance (.int (regByte 0)) ((vectored 0#8 0xFF#8).setReg 0 0x01#8)) interruptToEnter = some (some 0) := by
  decide

/-- RaiseInterruptSetsOnePendingBit, last clause. -/
theorem witness_raise : ((vectored 0#8 0x80#8).reg 6).getLsbD (7 : Line).val = true := by decide

/-- RaisedLineIsEnteredByTheNextTick. -/
theorem witness_raised_line :
    let s := { vectored 0xFF#8 0x80#8 with inputs := [[.raiseInterrupt 3], []] }
    s.run = .running ∧ s.inputs = [[Input.raiseInterrupt 3], []] ∧ s.ie = true ∧ (s.reg 5).getLsbD (3 : Line).val = true ∧
      (∀ j : Line, j < 3 → (s.reg 6 &&& s.reg 5).getLsbD j.val = false) := by decide

/-- ExternalEventsLandBeforeTheTick and PokeWritesOneByteOnly. -/
theorem witness_external :
    ({ State.reset with inputs := [[.poke 0xFF#8 0x01#8], []] }).inputs = [[Input.poke 0xFF#8 0x01#8], []] ∧
    State.reset.inputs = [] := by decide

/-- ResetGivesTheSpecsValues: at start and from a halted state. -/
theorem witness_reset : State.reset = State.resetWith [] ∧
    (applyInput (stopByHalt State.reset) .reset).mem = (stopByHalt State.reset).mem := by decide

/-- HaltedCoreStaysHaltedUntilReset, with events that are no reset. -/
theorem witness_halted :
    (stopByHalt { State.reset with inputs := [[.raiseInterrupt 0, .poke 1#8 2#8], []] }).run = .halted ∧
    NoResetScheduled (stopByHalt { State.reset with inputs := [[.raiseInterrupt 0, .poke 1#8 2#8], []] }) := by
  refine ⟨rfl, fun events h => ?_⟩
  have h' : events ∈ [[Input.raiseInterrupt 0, Input.poke 1#8 2#8], []] := h
  revert events; decide

/-- HaltedCoreStaysHaltedUntilReset, the clause on memory: the scheduled poke names address 1 and no other. -/
theorem witness_halted_memory : ∀ events ∈ [[Input.raiseInterrupt 0, Input.poke 1#8 2#8], []].take 1,
    ∀ v, Input.poke 0#8 v ∉ events ∧ Input.deviceWrite 0#8 v ∉ events := by decide

/-- HltStopsAfterItsOwnTick and NopOnlyAdvancesPc. -/
theorem witness_hlt_nop : ({ State.reset with ir := 0x01#8 }).ir = opcodeOf .hlt ∧ State.reset.ir = opcodeOf .nop ∧
    State.reset.run = .running := by decide

/-- EveryInstructionKeepsItsFrame: an instruction that writes a register, one that stores, and one that emits. -/
theorem witness_frame : exec (.add 0#8 1#8) State.reset = .next (done (.add 0#8 1#8) State.reset) ∧
    exec (.call 1#8) State.reset = .next (done (.call 1#8) State.reset) ∧
    exec (.prn 1#8) State.reset = .next (done (.prn 1#8) State.reset) := ⟨rfl, rfl, rfl⟩

/-- FlagsBelongToCmpIretAndTheJumps: an instruction of each kind, and the bits 3 and 7. -/
theorem witness_flags : (Instr.add 0#8 0#8).mnemonic ∉ [Mnemonic.CMP, .IRET, .JEQ, .JNE, .JGT, .JGE, .JLT, .JLE] ∧
    (Instr.jge 0#8).mnemonic ∈ [Mnemonic.JEQ, .JNE, .JGT, .JGE, .JLT, .JLE] ∧
    look (exec (.jge 0#8) (State.reset.setFl 0xFF#8)) (fun t => t.fl) = some 0xFF#8 ∧ Flag.gt ≠ Flag.lt := by decide

/-- DivAndModDivideUnsigned and DivideByZeroHaltsAndWritesNothing. -/
theorem witness_divide : (State.reset.setReg 1 1#8).reg 1 ≠ 0#8 ∧ State.reset.reg 1 = 0#8 ∧
    Instr.div 0#8 1#8 = .div (regByte 0) (regByte 1) ∧ Instr.mod 7#8 7#8 = .mod (regByte 7) (regByte 7) := by decide

/-- RetReturnsBehindTheCall: CALL at 0xFF through R7, then another register changed. -/
theorem witness_call_ret :
    let s := State.reset.setPc 0xFF#8
    let t := done (.call 7#8) s
    let u := t.setReg 0 0x99#8
    exec (.call (regByte 7)) s = .next t ∧ u.reg 7 = t.reg 7 ∧ u.mem.read (t.reg 7) = t.mem.read (t.reg 7) :=
  ⟨rfl, rfl, rfl⟩

/-- PushAndPopPrimitives: SP at 0x00 and at 0xFF. -/
theorem witness_stack_ends : (State.reset.setReg 7 0x00#8).reg 7 = 0x00#8 ∧ (State.reset.setReg 7 0xFF#8).reg 7 = 0xFF#8 := by
  decide

/-- PopLoadsTheRegister and PopUndoesPush, R7 and R0. -/
theorem witness_push_pop : (0 : Reg) ≠ 7 ∧ exec (.push (regByte 7)) State.reset = .next (done (.push 7#8) State.reset) ∧
    exec (.push (regByte 0)) State.reset = .next (done (.push 0#8) State.reset) := ⟨by decide, rfl, rfl⟩

/-- ResetMeetsTheInvariant: a canonical memory that lists bytes. -/
theorem witness_memory_wf : Memory.wf [(0, 0x01#8), (255, 0xFF#8)] := by decide

/-- StepKeepsTheInvariant: a state that meets it and steps. -/
theorem witness_invariant : Inv State.reset ∧ ∃ t, step State.reset = .next t := ⟨⟨by decide, rfl, rfl, rfl⟩, _, rfl⟩

/-- StepKeepsTheInvariant: a halted state of each cause that meets it and steps. -/
theorem witness_invariant_halted :
    let hlt := stopByHalt { State.reset with ir := 0x01#8 }
    let bad := raiseFatal .invalidOpcode 0xFF#8 { State.reset with ir := 0xFF#8 }
    let dz := raiseFatal .divZero 0xA4#8 { State.reset with ir := 0xA4#8 }
    (hlt.run = .halted ∧ Inv hlt ∧ ∃ t, step hlt = .next t) ∧ (bad.run = .halted ∧ Inv bad ∧ ∃ t, step bad = .next t) ∧
      (dz.run = .halted ∧ Inv dz ∧ ∃ t, step dz = .next t) :=
  ⟨⟨rfl, ⟨by decide, rfl, .inl ⟨rfl, rfl, rfl⟩⟩, _, rfl⟩, ⟨rfl, ⟨by decide, rfl, .inr (.inl ⟨rfl, rfl, rfl⟩)⟩, _, rfl⟩,
    ⟨rfl, ⟨by decide, rfl, .inr (.inr ⟨rfl, .inr rfl, rfl⟩)⟩, _, rfl⟩⟩

/-- WithFetchWordRunsTheInstruction: one, two and three bytes. -/
theorem witness_fetch_word : decodeTableWord 8 0x13 = some .iret ∧ decodeTableWord 16 0x0750 = some (.call 7#8) ∧
    decodeTableWord 24 0xFF0782 = some (.ldi 7#8 0xFF#8) := by decide

end Sys2Proof.Tests
end

section
/-! What the hidden interrupt enable `ie` can and cannot influence (10_state.md R30): the action of every instruction
commutes with a write of `ie`, save IRET, which like interrupt entry answers the same whatever `ie` was. -/

namespace Sys2Proof.Machine

open Sys2Proof.Safety

/-! ### a write of `ie` and the operations of the state -/

@[simp] theorem setIe_setIe (s : State) (b c : Bool) : (s.setIe b).setIe c = s.setIe c := rfl

@[simp] theorem popReg_setIe (r : Reg) (s : State) (b : Bool) : popReg r (s.setIe b) = (popReg r s).setIe b := rfl

@[simp] theorem popFl_setIe (s : State) (b : Bool) : popFl (s.setIe b) = (popFl s).setIe b := rfl

@[simp] theorem popPc_setIe (s : State) (b : Bool) : popPc (s.setIe b) = (popPc s).setIe b := rfl

/-- The return from an interrupt overwrites `ie` without reading it (44_interrupt_instructions.md R201). -/
@[simp] theorem interruptReturn_setIe (s : State) (b : Bool) : interruptReturn (s.setIe b) = interruptReturn s := by
  simp only [interruptReturn, popReg_setIe, popFl_setIe, popPc_setIe, setIe_setIe]

/-- Interrupt entry overwrites `ie` before it saves anything (60_exceptions.md R239). -/
@[simp] theorem interruptEntry_setIe (i : Line) (s : State) (b : Bool) :
    interruptEntry i (s.setIe b) = interruptEntry i s := by
  simp only [interruptEntry, setIe_setIe]

/-- With recognition off no line is entered (60_exceptions.md R238). -/
theorem interruptToEnter_of_ie_false {s : State} (h : s.ie = false) : interruptToEnter s = none := by
  simp [interruptToEnter, h]

/-- With recognition off step 1 of the tick does nothing. -/
theorem interruptPhase_of_ie_false {s : State} (h : s.ie = false) : interruptPhase s = s := by
  simp [interruptPhase, interruptToEnter_of_ie_false h]

/-! ### a function of the next state, through the operand forms -/

/-- If one action is another followed by `f` on every register, so are their answers on every operand byte: the
refusals are the same. -/
theorem withReg_eq_mapNext {f : State → State} {act act' : Reg → State} (a : Byte) (h : ∀ d, act' d = f (act d)) :
    withReg a act' = mapNext f (withReg a act) := by
  unfold withReg
  cases regOf a with
  | none => rfl
  | some d => exact congrArg Host.Outcome.next (h d)

/-- The same for two operand bytes. -/
theorem withRegs_eq_mapNext {f : State → State} {act act' : Reg → Reg → State} (a b : Byte)
    (h : ∀ d r, act' d r = f (act d r)) : withRegs a b act' = mapNext f (withRegs a b act) := by
  unfold withRegs
  cases regOf a with
  | none => rfl
  | some d => exact withReg_eq_mapNext b (h d)

/-! ### the actions -/

/-- A conditional jump decides by FL alone. -/
theorem jumpIf_setIe (cond : Byte → Bool) (a : Byte) (s : State) (b : Bool) :
    jumpIf cond a (s.setIe b) = mapNext (fun t => t.setIe b) (jumpIf cond a s) := by
  refine withReg_eq_mapNext a fun _ => ?_
  rw [apply_ite (fun t : State => t.setIe b)]
  rfl

/-- DIV and MOD stop or divide by their second operand alone. -/
theorem aluDivide_setIe (f : Byte → Byte → Byte) (a c : Byte) (s : State) (b : Bool) :
    aluDivide f a c (s.setIe b) = mapNext (fun t => t.setIe b) (aluDivide f a c s) := by
  refine withRegs_eq_mapNext a c fun _ _ => ?_
  rw [apply_ite (fun t : State => t.setIe b)]
  rfl

/-- Every action but IRET's neither reads nor writes `ie`: it commutes with a write of it. -/
theorem exec_setIe {i : Instr} (hi : i ≠ .iret) (s : State) (b : Bool) :
    exec i (s.setIe b) = mapNext (fun t => t.setIe b) (exec i s) := by
  cases i
  case iret => exact absurd rfl hi
  case nop | hlt | ret => rfl
  case div | mod => exact aluDivide_setIe _ _ _ s b
  case jeq | jne | jgt | jlt | jle | jge => exact jumpIf_setIe _ _ s b
  case int | push | pop | prn | pra | call | jmp | inc | dec | not | ldi => exact withReg_eq_mapNext _ fun _ => rfl
  case ld | st | add | sub | mul | cmp | and | or | xor | shl | shr => exact withRegs_eq_mapNext _ _ fun _ _ => rfl

/-- IRET answers the same whatever `ie` was. -/
theorem exec_iret_setIe (s : State) (b : Bool) : exec .iret (s.setIe b) = exec .iret s :=
  congrArg Host.Outcome.next (interruptReturn_setIe s b)

/-- Settles O18: `ie` commutes with every action but IRET's, and IRET and interrupt entry overwrite it. -/
theorem interruptEnableIsHidden : Obligations.InterruptEnableIsHidden :=
  ⟨fun _ => interruptPhase_of_ie_false,
   fun _ s b hi => exec_setIe hi s b,
   exec_iret_setIe,
   fun s => ⟨interruptReturn s, rfl, interruptReturn_ie s⟩,
   fun i s b => ⟨interruptEntry_setIe i s b, interruptEntry_ie s i⟩,
   fun _ => rfl⟩

end Sys2Proof.Machine
end

section
/-! The memory accesses of one tick, all of them and in order (20_memory.md R66), and memory as a plain array
(20_memory.md R65). -/

namespace Sys2Proof.Machine

open Sys2Proof.Safety

/-! ### what the fetch, a completed action and a hit of the dispatch table say -/

/-- The fetch changes nothing the accesses of an action depend on: not the registers, PC or memory. -/
@[simp] theorem actionAccesses_afterFetch (s : State) (i : Instr) :
    actionAccesses (afterFetch s) i = actionAccesses s i := by
  cases i <;> rfl

/-- Only a well-formed instruction has an action that completes (30_encoding.md R96). -/
theorem wellFormed_of_exec_next {i : Instr} {s t : State} (h : exec i s = .next t) : i.wellFormed = true := by
  cases i
  case nop | hlt | ret | iret => rfl
  case int | push | pop | prn | pra | call | jmp | jeq | jne | jgt | jlt | jle | jge | inc | dec | not | ldi =>
    obtain ⟨ha, -⟩ := withReg_next h
    simp [Instr.wellFormed, Instr.registerOperands, ha]
  case ld | st | add | sub | mul | div | mod | cmp | and | or | xor | shl | shr =>
    obtain ⟨ha, hb, -⟩ := withRegs_next h
    simp [Instr.wellFormed, Instr.registerOperands, ha, hb]

/-- An opcode of the map counts at most two operand bytes (30_encoding.md R95). -/
theorem operandCountOf_le_two {op : Byte} {row : OpRow} (h : lookupOpcode op = some row) :
    (operandCountOf op).toNat ≤ 2 := by
  obtain ⟨hop, hbytes⟩ := lookupOpcode_hit h 0#8 0#8
  have hlen := operandBytes_length (row.build 0#8 0#8)
  rw [hop, hbytes, List.length_take] at hlen
  exact hlen ▸ Nat.min_le_right _ _

/-- The three bytes the fetch reads decode to the instruction of the opcode's row, if it is well-formed: the converse of
`decode_three`. -/
theorem decode_three_of_lookupOpcode {b0 b1 b2 : Byte} {row : OpRow} (hrow : lookupOpcode b0 = some row)
    (hw : (row.build b1 b2).wellFormed = true) : ∃ rest, decode [b0, b1, b2] = .ok (row.build b1 b2, rest) := by
  have hlen : ¬ [b1, b2].length < (operandCountOf b0).toNat := Nat.not_lt.mpr (operandCountOf_le_two hrow)
  exact ⟨[b1, b2].drop (operandCountOf b0).toNat, by
    simp only [decode, hrow, if_neg hlen, List.getD_cons_zero, List.getD_cons_succ, hw, if_true]⟩

/-- A byte outside the map is a miss of the dispatch table. -/
theorem isOpcode_eq_false {op : Byte} : isOpcode op = false ↔ lookupOpcode op = none :=
  Option.isSome_eq_false_iff.trans Option.isNone_iff_eq_none

/-! ### the accesses of each phase -/

/-- With no line to enter, step 1 of the tick does nothing (40_execution_cycle.md R121). -/
theorem interruptPhase_of_no_line {s : State} (h : interruptToEnter s = none) : interruptPhase s = s := by
  rw [interruptPhase, h]

/-- With a line to enter, step 1 of the tick is its entry (40_execution_cycle.md R121). -/
theorem interruptPhase_of_line {i : Line} {s : State} (h : interruptToEnter s = some i) :
    interruptPhase s = interruptEntry i s := by
  rw [interruptPhase, h]

/-- Interrupt entry makes its nine writes and then reads the vector from the memory they leave
(60_exceptions.md R239, R240). -/
theorem interruptEntry_bus_eq_entryWrites (i : Line) (s : State) :
    (interruptEntry i s).bus =
      s.bus ++ (entryWrites i s ++ [readOf (interruptEntry i s) (vectorAddress i)]) := by
  have hread (a : Byte) : readOf (interruptEntry i s) a = readOf (saveContext (acknowledge i (s.setIe false))) a := by
    simp only [readOf, interruptEntry_mem]
  rw [interruptEntry_bus, saveContext_bus, hread]
  simp [entryWrites, acknowledge_reg, isReg, spReg]

/-- For an invalid opcode the instruction phase reads the opcode and nothing more (40_execution_cycle.md R123). -/
theorem instructionPhase_bus_of_miss {u t : State} (hop : isOpcode (u.mem.read u.pc) = false)
    (ht : instructionPhase u = .next t) : t.bus = u.bus ++ [readOf u u.pc] := by
  rcases instructionPhase_cases u with ⟨-, e⟩ | ⟨row, hrow, -⟩
  · obtain rfl := Host.Outcome.next.inj (e.symm.trans ht)
    rfl
  · rw [isOpcode_eq_false.mp hop] at hrow
    cases hrow

/-- For a valid opcode the three bytes the instruction phase reads decode, and after those reads come the accesses of
the decoded instruction's action (40_execution_cycle.md R122, R124, R125). -/
theorem instructionPhase_bus_of_hit {u t : State} (hop : isOpcode (u.mem.read u.pc) = true)
    (ht : instructionPhase u = .next t) :
    ∃ i rest, decode [u.mem.read u.pc, u.mem.read (u.pc + 1), u.mem.read (u.pc + 2)] = .ok (i, rest) ∧
      t.bus = u.bus ++ [readOf u u.pc, readOf u (u.pc + 1), readOf u (u.pc + 2)] ++ actionAccesses u i := by
  rcases instructionPhase_cases u with ⟨hmiss, -⟩ | ⟨row, hrow, e⟩
  · rw [isOpcode_eq_false.mpr hmiss] at hop
    cases hop
  · obtain ⟨v, hexec, rfl⟩ := execThenAdvance_next _ (e.symm.trans ht)
    obtain ⟨rest, hdec⟩ := decode_three_of_lookupOpcode hrow (wellFormed_of_exec_next hexec)
    refine ⟨_, rest, hdec, ?_⟩
    rw [finishTick_bus, exec_bus _ _ _ hexec, afterFetch_bus, actionAccesses_afterFetch]

/-- Settles O12: phase by phase, the accesses are those of the table of 20_memory.md R66. -/
theorem everyMemoryAccessInOrder : Obligations.EveryMemoryAccessInOrder := by
  refine ⟨fun s hnone => ?_, fun i s hsome => ?_, fun _ _ => instructionPhase_bus_of_hit,
    fun _ _ => instructionPhase_bus_of_miss⟩
  · rw [interruptPhase_of_no_line hnone]
  · rw [interruptPhase_of_line hsome]
    exact interruptEntry_bus_eq_entryWrites i s

/-- Settles O48: every writer stores through `Memory.write`, and a read touches the access history alone. -/
theorem memoryIsAPlainArray : Obligations.MemoryIsAPlainArray :=
  ⟨fun a v b s => read_write s.mem a v b,
   fun a v b s => ⟨read_write s.mem a v b, read_write s.mem a v b⟩,
   fun _ _ => rfl,
   fun a s => ⟨memRead_value s a, rfl⟩⟩

end Sys2Proof.Machine
end

section
/-! The constraints on the opcode map (30_encoding.md R99), of the encoder's map and the decoder's table. -/

namespace Sys2Proof

/-! ### the two fields of an opcode byte -/

/-- NOPS is the top two bits of the opcode byte (30_encoding.md R91). -/
theorem operandCountOf_toNat (op : Byte) : (operandCountOf op).toNat = op.toNat / 64 := by
  have hmask : (operandCountOf op).toNat = op.toNat >>> 6 % 4 := Nat.and_two_pow_sub_one_eq_mod _ 2
  have hbyte : op.toNat < 256 := op.isLt
  rw [hmask, Nat.shiftRight_eq_div_pow]
  omega

/-- Bits 7:6 of an opcode are the operand count of its format (30_encoding.md R93, R95). -/
theorem opcodeOf_div_64 (i : Instr) : (opcodeOf i).toNat / 64 = i.mnemonic.format.operandCount := by
  obtain ⟨-, hcount, -⟩ := Laws.WordShape.word_shape i
  rw [← operandCountOf_toNat, hcount]

/-- No format has three operands (30_encoding.md R95). -/
theorem Format.operandCount_le_two (f : Format) : f.operandCount ≤ 2 := by
  cases f <;> decide

/-- Bit 4 of an opcode is the SETSPC of its operation (30_encoding.md R94). -/
theorem opcodeOf_getLsbD_four (i : Instr) : (opcodeOf i).getLsbD 4 = i.mnemonic.setsPc := by
  obtain ⟨-, -, hset⟩ := Laws.WordShape.word_shape i
  exact hset

/-- The operations that set PC, listed (30_encoding.md R94, R99). -/
theorem Mnemonic.setsPc_iff_mem (m : Mnemonic) :
    m.setsPc = true ↔ m ∈ [.CALL, .JMP, .JEQ, .JNE, .JGT, .JGE, .JLT, .JLE, .RET, .IRET] := by
  cases m <;> decide

/-! ### one operation to each opcode -/

/-- Operand bytes do not choose the operation: a row of the table builds instructions of one operation only. -/
theorem row_builds_one_mnemonic : ∀ row ∈ opTable, ∀ a b c d : Byte,
    (row.build a b).mnemonic = (row.build c d).mnemonic := by
  simp only [opTable, opTableZ, opTableR, opTableJump, opTableData, opTableAlu, List.cons_append, List.nil_append,
    List.forall_mem_cons, List.not_mem_nil, false_implies, implies_true, and_true, true_and]
  and_intros <;> exact fun _ _ _ _ => rfl

/-- Equal opcodes are of equal operations: the dispatch table answers both with the same row, and that row builds both
instructions. -/
theorem mnemonic_eq_of_opcodeOf_eq {i j : Instr} (h : opcodeOf i = opcodeOf j) : i.mnemonic = j.mnemonic := by
  obtain ⟨row, hrow, hi⟩ := lookupOpcode_opcodeOf i []
  obtain ⟨row', hrow', hj⟩ := lookupOpcode_opcodeOf j []
  obtain rfl : row = row' := Option.some.inj (hrow.symm.trans (h ▸ hrow'))
  rw [← hi, ← hj]
  exact row_builds_one_mnemonic row (List.mem_of_find?_eq_some hrow) _ _ _ _

/-- Settles O3: distinctness from the dispatch table's answering each byte with one row, the fields from the shape of the
words, and the two maps' agreement from what a hit of the table builds. -/
theorem opcodeMapMeetsItsConstraints : Obligations.OpcodeMapMeetsItsConstraints := by
  refine ⟨fun _ _ => mnemonic_eq_of_opcodeOf_eq, fun i => ?nops, fun i => ?setspc, fun i => ?noThree,
    fun _ _ a b hrow => (lookupOpcode_hit hrow a b).1, fun i => ?hit⟩
  case nops =>
    rw [opcodeOf_div_64]
    cases i.mnemonic.format <;> rfl
  case setspc =>
    rw [opcodeOf_getLsbD_four]
    exact i.mnemonic.setsPc_iff_mem
  case noThree =>
    rw [opcodeOf_div_64]
    exact Nat.ne_of_lt (Nat.lt_succ_of_le i.mnemonic.format.operandCount_le_two)
  case hit =>
    obtain ⟨row, hrow, -⟩ := lookupOpcode_opcodeOf i []
    exact ⟨row, hrow⟩

end Sys2Proof
end

section
/-! Which line, if any, step 1 of the tick enters (40_execution_cycle.md R121; 60_exceptions.md R238). -/

namespace Sys2Proof.Machine

/-- A line is entered exactly when recognition is on and it is the lowest eligible one. -/
theorem interruptToEnter_eq_some {s : State} {i : Line} :
    interruptToEnter s = some i ↔
      s.ie = true ∧ (eligibleLines s).getLsbD i.val = true ∧
        ∀ j : Line, j < i → (eligibleLines s).getLsbD j.val = false := by
  rw [interruptToEnter, Option.ite_none_right_eq_some, lowestLine_eq_some]

/-- With nothing eligible no line is entered, whatever `ie` is. -/
theorem interruptToEnter_of_eligibleLines_eq_zero {s : State} (h : eligibleLines s = 0#8) :
    interruptToEnter s = none := by
  have hnone : lowestLine (eligibleLines s) = none := lowestLine_eq_none.mpr fun _ => by rw [h, BitVec.getLsbD_zero]
  rw [interruptToEnter, hnone, ite_self]

/-- Settles O14: the lowest eligible line is the one step 1 enters, and with the gate closed or nothing eligible there
is none. -/
theorem interruptCheckEntersTheLowestEligibleLine : Obligations.InterruptCheckEntersTheLowestEligibleLine := by
  refine ⟨fun s i hie hi hlow => ?entered, fun s h => ?nothing⟩
  case entered => exact interruptPhase_of_line (interruptToEnter_eq_some.mpr ⟨hie, hi, hlow⟩)
  case nothing =>
    obtain hie | hzero := h
    · exact interruptPhase_of_ie_false hie
    · exact interruptPhase_of_no_line (interruptToEnter_of_eligibleLines_eq_zero hzero)

end Sys2Proof.Machine
end

section
/-! The stack primitives (43_stack.md R190, R191, R194): where SP goes, and the frame of `Push` and of `Pop`. -/

namespace Sys2Proof.Machine

open Sys2Proof.Safety

/-- `Push` leaves SP one lower, modulo 256 (43_stack.md R190). -/
theorem push_reg_sp (v : Byte) (s : State) : (push v s).reg spReg = s.reg spReg - 1 := by
  rw [push_reg, if_pos rfl]

/-- `Pop` leaves SP one higher, modulo 256 (43_stack.md R191). -/
theorem pop_reg_sp (s : State) : (pop s).2.reg spReg = s.reg spReg + 1 := by
  rw [pop_reg, if_pos rfl]

/-- The byte at SP after a `Push` is the one pushed. -/
theorem push_read_sp (v : Byte) (s : State) : (push v s).mem.read ((push v s).reg spReg) = v := by
  rw [push_mem, push_reg_sp, read_write_same]

/-- `Push` changes SP and the byte it stores, PC and FL and the access history aside. -/
theorem push_onlyChanges (v : Byte) (s : State) :
    OnlyChanges [spReg] [(push v s).reg spReg] s (push v s) where
  regs_kept r hr := by rw [push_reg, if_neg (List.ne_of_not_mem_cons hr)]
  mem_kept a ha := by
    have hne : a ≠ s.reg spReg - 1 := push_reg_sp v s ▸ List.ne_of_not_mem_cons ha
    rw [push_mem, read_write_ne _ _ hne]
  ir_kept := rfl
  ie_kept := rfl
  run_kept := rfl
  cause_kept := rfl
  info_kept := rfl
  trace_kept := rfl
  signals_kept := rfl
  inputs_kept := rfl

/-- `Pop` changes SP alone, PC and FL and the access history aside. -/
theorem pop_onlyChanges (s : State) : OnlyChanges [spReg] [] s (pop s).2 where
  regs_kept r hr := by rw [pop_reg, if_neg (List.ne_of_not_mem_cons hr)]
  mem_kept _ _ := rfl
  ir_kept := rfl
  ie_kept := rfl
  run_kept := rfl
  cause_kept := rfl
  info_kept := rfl
  trace_kept := rfl
  signals_kept := rfl
  inputs_kept := rfl

/-- Settles O41: SP's new value and the frame by the lemmas of the two primitives, and the two ends of the address range
as instances of them. -/
theorem pushAndPopPrimitives : Obligations.PushAndPopPrimitives := by
  refine fun v s => ⟨?pushSp, push_read_sp v s, push_onlyChanges v s, push_pc s v, push_fl s v, pop_value s, ?popSp,
    pop_onlyChanges s, pop_pc s, pop_fl s, fun hsp => ?pushAtZero, fun hsp => ?popAtTop⟩
  case pushSp => rw [push_reg_sp, BitVec.toNat_sub, Nat.add_comm]; rfl
  case popSp => rw [pop_reg_sp, BitVec.toNat_add]; rfl
  case pushAtZero =>
    have htop : (push v s).reg spReg = 0xFF#8 := by rw [push_reg_sp, hsp]; rfl
    exact ⟨htop ▸ push_read_sp v s, htop⟩
  case popAtTop =>
    have hzero : (pop s).2.reg spReg = 0x00#8 := by rw [pop_reg_sp, hsp]; rfl
    exact ⟨hsp ▸ pop_value s, hzero⟩

end Sys2Proof.Machine
end

section
/-! The decoder and the encoder undo each other (30_encoding.md R92 to R96, R100 to R102). -/

namespace Sys2Proof

/-! ### what the decoder answers on an opcode byte and the bytes after it -/

/-- Where operand A and operand B are read are the first operand bytes, as many as there are (30_encoding.md R92). -/
theorem take_getD_pair {l : List Byte} {n : Nat} (hlen : n ≤ l.length) (htwo : n ≤ 2) :
    [l.getD 0 0#8, l.getD 1 0#8].take n = l.take n := by
  match n, l with
  | 0, _ => rfl
  | 1, _ :: _ => rfl
  | 2, _ :: _ :: _ => rfl
  | _ + 3, _ => omega

/-- An instruction of a row is encoded as the opcode and the operand bytes it counts. -/
theorem encode_build {op : Byte} {row : OpRow} (hrow : lookupOpcode op = some row) (a b : Byte) :
    encode (row.build a b) = op :: [a, b].take (operandCountOf op).toNat := by
  obtain ⟨hop, hbytes⟩ := lookupOpcode_hit hrow a b
  rw [encode, hop, hbytes]

/-- The decoder rejects a first byte as illegal exactly on a miss of the dispatch table (30_encoding.md R100). -/
theorem decode_illegal_iff (op : Byte) (rest : List Byte) :
    decode (op :: rest) = .error (.illegalOpcode op) ↔ lookupOpcode op = none := by
  cases h : lookupOpcode op with
  | none => simp [decode, h]
  | some row =>
    simp only [decode, h, reduceCtorEq, iff_false]
    split
    · exact nofun
    · split <;> exact nofun

/-- What the decoder accepts is a hit of the dispatch table, all of whose operand bytes are there and in range. -/
theorem decode_cons_ok {op : Byte} {l rest : List Byte} {i : Instr} (h : decode (op :: l) = .ok (i, rest)) :
    ∃ row, lookupOpcode op = some row ∧ (operandCountOf op).toNat ≤ l.length ∧ i.wellFormed = true ∧
      i = row.build (l.getD 0 0#8) (l.getD 1 0#8) ∧ rest = l.drop (operandCountOf op).toNat := by
  cases hrow : lookupOpcode op with
  | none =>
    rw [(decode_illegal_iff op l).mpr hrow] at h
    cases h
  | some row =>
    simp only [decode, hrow] at h
    split at h
    · cases h
    next hlen =>
      split at h
      next hw => cases h; exact ⟨row, rfl, Nat.le_of_not_lt hlen, hw, rfl, rfl⟩
      next => cases h

/-! ### the round trip, both ways -/

/-- Decoding undoes encoding: the opcode finds the instruction's row, and the row rebuilds it from its operand bytes. -/
theorem decode_encode {i : Instr} (hw : i.wellFormed = true) (rest : List Byte) :
    decode (encode i ++ rest) = .ok (i, rest) := by
  obtain ⟨row, hrow, hbuild⟩ := lookupOpcode_opcodeOf i rest
  have hcount := operandBytes_length i
  have hlen : ¬ (operandBytes i ++ rest).length < (operandCountOf (opcodeOf i)).toNat := by
    rw [← hcount, List.length_append]
    omega
  have hdrop : (operandBytes i ++ rest).drop (operandCountOf (opcodeOf i)).toNat = rest :=
    List.drop_left' hcount
  simp only [encode, List.cons_append, decode, hrow, hbuild, hdrop, if_neg hlen, if_pos hw]

/-- Encoding undoes decoding: what was accepted is the encoding of the answer, followed by what was left. -/
theorem encode_decode {bs rest : List Byte} {i : Instr} (h : decode bs = .ok (i, rest)) :
    i.wellFormed = true ∧ bs = encode i ++ rest := by
  cases bs with
  | nil => cases h
  | cons op l =>
    obtain ⟨row, hrow, hlen, hw, rfl, rfl⟩ := decode_cons_ok h
    refine ⟨hw, ?_⟩
    rw [encode_build hrow, take_getD_pair hlen (Machine.operandCountOf_le_two hrow), List.cons_append,
      List.take_append_drop]

/-- Settles O1: every instruction's opcode is a hit whose row rebuilds it from its own operand bytes. -/
theorem decodeOfEncodeIsTheInstruction : Obligations.DecodeOfEncodeIsTheInstruction :=
  fun _ rest hw => decode_encode hw rest

/-- Settles O2: an accepted byte sequence is the opcode, the counted operand bytes and the rest. -/
theorem decodeAcceptsOnlyEncodings : Obligations.DecodeAcceptsOnlyEncodings :=
  fun _ _ _ => encode_decode

/-! ### bytes outside the map -/

/-- A byte is a miss of the dispatch table exactly if no instruction is encoded with it (30_encoding.md R100). -/
theorem lookupOpcode_eq_none {op : Byte} : lookupOpcode op = none ↔ ∀ i : Instr, opcodeOf i ≠ op := by
  constructor
  · rintro hmiss i rfl
    obtain ⟨row, hrow, -⟩ := lookupOpcode_opcodeOf i []
    cases hmiss.symm.trans hrow
  · intro hnone
    cases hrow : lookupOpcode op with
    | none => rfl
    | some row => exact absurd (lookupOpcode_hit hrow 0#8 0#8).1 (hnone _)

/-- No opcode has bits 7:6 equal to 11 (30_encoding.md R99, R101). -/
theorem opcodeOf_lt (i : Instr) : (opcodeOf i).toNat < 0xC0 := by
  have hfield := opcodeOf_div_64 i
  have htwo := i.mnemonic.format.operandCount_le_two
  omega

/-- Settles O4: the decoder's misses are the bytes no instruction has as its opcode, and the count is over all bytes. -/
theorem bytesOutsideTheMapAreIllegal : Obligations.BytesOutsideTheMapAreIllegal := by
  refine ⟨fun op rest => (decode_illegal_iff op rest).trans lookupOpcode_eq_none, fun op rest hop => ?_,
    by decide +kernel⟩
  refine (decode_illegal_iff op rest).mpr (lookupOpcode_eq_none.mpr ?_)
  rintro i rfl
  exact absurd (opcodeOf_lt i) (Nat.not_lt.mpr hop)

/-- Settles O5: the accepted words are encodings of well-formed instructions, so `decode_encode` reads them back. -/
theorem specWordsDecode : Obligations.SpecWordsDecode :=
  ⟨decode_encode (i := .add 0#8 1#8) rfl [], decode_encode (i := .not 2#8) rfl [],
   decode_encode (i := .jlt 3#8) rfl [], decode_encode (i := .ret) rfl [], decode_encode (i := .push 7#8) rfl [],
   decode_encode (i := .int 5#8) rfl [], decode_encode (i := .st 2#8 0#8) rfl [],
   decode_encode (i := .ldi 7#8 0x80#8) rfl [], decode_encode (i := .pra 6#8) rfl [],
   (decode_illegal_iff 0x52#8 [0x00#8]).mpr rfl, rfl⟩

end Sys2Proof
end

section
/-! Which instructions complete (30_encoding.md R96), and what every action leaves unchanged: its frame, and the stop of
the core for all but three instructions (10_state.md section 1, 20_memory.md R66, 60_exceptions.md R234). -/

namespace Sys2Proof.Machine

open Sys2Proof.Safety

/-! ### completion -/

/-- The answer of an action whose register operands are the bytes `bs`: a next state if every one names a register, and
else the refusal of one that does not (30_encoding.md R96). -/
def CompletesOnRegisters (bs : List Byte) (o : Host.Outcome State Fault Refusal) : Prop :=
  (bs.all isRegister = true → ∃ t, o = .next t) ∧
  (bs.all isRegister = false → ∃ b ∈ bs, 8 ≤ b.toNat ∧ o = .refused (.registerOperandAboveSeven b))

theorem next_completesOnRegisters (t : State) : CompletesOnRegisters [] (.next t) :=
  ⟨fun _ => ⟨t, rfl⟩, fun h => by cases h⟩

theorem eight_le_of_not_isRegister {b : Byte} (h : isRegister b = false) : 8 ≤ b.toNat := by
  simpa [isRegister] using h

theorem withReg_completesOnRegisters (a : Byte) (act : Reg → State) :
    CompletesOnRegisters [a] (withReg a act) := by
  rcases withReg_cases a act with ⟨ha, e⟩ | ⟨ha, e⟩
  · exact ⟨fun _ => ⟨_, e⟩, fun h => by simp [ha] at h⟩
  · exact ⟨fun h => by simp [ha] at h, fun _ => ⟨a, by simp, eight_le_of_not_isRegister ha, e⟩⟩

theorem withRegs_completesOnRegisters (a b : Byte) (act : Reg → Reg → State) :
    CompletesOnRegisters [a, b] (withRegs a b act) := by
  rcases withRegs_cases a b act with ⟨ha, hb, e⟩ | ⟨ha, e⟩ | ⟨-, hb, e⟩
  · exact ⟨fun _ => ⟨_, e⟩, fun h => by simp [ha, hb] at h⟩
  · exact ⟨fun h => by simp [ha] at h, fun _ => ⟨a, by simp, eight_le_of_not_isRegister ha, e⟩⟩
  · exact ⟨fun h => by simp [hb] at h, fun _ => ⟨b, by simp, eight_le_of_not_isRegister hb, e⟩⟩

/-- Every action is of one of three operand forms, and each completes exactly on register bytes. -/
theorem exec_completesOnRegisters (i : Instr) (s : State) : CompletesOnRegisters i.registerOperands (exec i s) := by
  cases i
  case nop | hlt | ret | iret => exact next_completesOnRegisters _
  case int | push | pop | prn | pra | call | jmp | jeq | jne | jgt | jlt | jle | jge | inc | dec | not | ldi =>
    exact withReg_completesOnRegisters _ _
  case ld | st | add | sub | mul | div | mod | cmp | and | or | xor | shl | shr =>
    exact withRegs_completesOnRegisters _ _ _

/-- A refused action is a refused tick. -/
theorem execThenAdvance_refused {i : Instr} {s : State} {r : Refusal} (h : exec i s = .refused r) :
    execThenAdvance i s = .refused r := by
  rw [execThenAdvance, h]

/-- A completed action is a completed tick. -/
theorem execThenAdvance_of_next {i : Instr} {s t : State} (h : exec i s = .next t) :
    execThenAdvance i s = .next (finishTick t) := by
  rw [execThenAdvance, h]

/-- On a hit of the dispatch table steps 2 to 6 are the row's action on the fetched state, and the advance. -/
theorem instructionPhase_of_hit {s : State} {row : OpRow} (h : lookupOpcode (s.mem.read s.pc) = some row) :
    instructionPhase s =
      execThenAdvance (row.build (s.mem.read (s.pc + 1)) (s.mem.read (s.pc + 2))) (afterFetch s) := by
  rcases instructionPhase_cases s with ⟨hmiss, -⟩ | ⟨row', hrow, e⟩
  · cases hmiss.symm.trans h
  · obtain rfl : row' = row := Option.some.inj (hrow.symm.trans h)
    exact e

/-- Settles O6: the operand form decides completion, and the tick passes a refusal on. -/
theorem execCompletesExactlyOnRegisterBytes : Obligations.ExecCompletesExactlyOnRegisterBytes := by
  refine ⟨fun i s => (exec_completesOnRegisters i s).1, fun i s => (exec_completesOnRegisters i s).2,
    fun s row hrow hw => ?tick⟩
  obtain ⟨b, -, hb, e⟩ := (exec_completesOnRegisters _ (afterFetch s)).2 hw
  exact ⟨b, hb, by rw [instructionPhase_of_hit hrow, execThenAdvance_refused e]⟩

/-! ### the frame of every action -/

/-- An action leaves every register the table of 10_state.md section 1 does not give it. -/
theorem exec_reg_of_not_mem {i : Instr} {s t : State} {r : Reg} (h : exec i s = .next t) (hr : r ∉ writtenRegs i) :
    t.reg r = s.reg r := by
  cases i
  case nop | hlt => cases h; rfl
  case ret => cases h; rw [popPc_reg, if_neg (List.ne_of_not_mem_cons hr)]
  case iret => exact absurd (by revert r; decide) hr
  case jeq | jne | jgt | jlt | jle | jge =>
    obtain ⟨-, rfl⟩ := withReg_next h
    split <;> rfl
  case prn | pra | jmp =>
    obtain ⟨-, rfl⟩ := withReg_next h
    rfl
  case push =>
    obtain ⟨-, rfl⟩ := withReg_next h
    rw [push_reg, if_neg (List.ne_of_not_mem_cons hr)]
  case call =>
    obtain ⟨-, rfl⟩ := withReg_next h
    rw [setPc_reg, push_reg, if_neg (List.ne_of_not_mem_cons hr)]
  case pop =>
    obtain ⟨-, rfl⟩ := withReg_next h
    simp only [writtenRegs, List.mem_cons, List.not_mem_nil, or_false, not_or] at hr
    rw [popReg_reg, if_neg hr.1, if_neg hr.2]
  case int | inc | dec | not | ldi =>
    obtain ⟨-, rfl⟩ := withReg_next h
    exact setReg_reg_ne _ _ _ _ (List.ne_of_not_mem_cons hr)
  case st | cmp =>
    obtain ⟨-, -, rfl⟩ := withRegs_next h
    rfl
  case div | mod =>
    obtain ⟨-, -, rfl⟩ := withRegs_next h
    split
    · rfl
    · exact setReg_reg_ne _ _ _ _ (List.ne_of_not_mem_cons hr)
  case ld | add | sub | mul | and | or | xor | shl | shr =>
    obtain ⟨-, -, rfl⟩ := withRegs_next h
    exact setReg_reg_ne _ _ _ _ (List.ne_of_not_mem_cons hr)

/-- The addresses an action stores to are its written cells. -/
theorem write_not_mem_actionAccesses {i : Instr} {s : State} {a : Byte} (ha : a ∉ writtenCells s i) (c : Byte) :
    BusAccess.write a c ∉ actionAccesses s i := by
  cases i
  case st | push | call =>
    intro hmem
    obtain ⟨rfl, -⟩ := BusAccess.write.inj (List.mem_singleton.mp hmem)
    exact ha (List.mem_singleton.mpr rfl)
  all_goals simp [actionAccesses, readOf]

/-- No action writes IR or the schedule, and only PRN and PRA emit. -/
theorem exec_ir_inputs_trace {i : Instr} {s t : State} (h : exec i s = .next t) :
    t.ir = s.ir ∧ t.inputs = s.inputs ∧ (i.mnemonic ∉ [.PRN, .PRA] → t.trace = s.trace) := by
  cases i
  case nop | hlt | ret => cases h; exact ⟨rfl, rfl, fun _ => rfl⟩
  case iret =>
    obtain rfl := iret_next h
    exact ⟨interruptReturn_ir s, interruptReturn_inputs s, fun _ => interruptReturn_trace s⟩
  case prn | pra =>
    obtain ⟨-, rfl⟩ := withReg_next h
    exact ⟨rfl, rfl, fun hne => absurd (by simp [Instr.mnemonic]) hne⟩
  case jeq | jne | jgt | jlt | jle | jge =>
    obtain ⟨-, rfl⟩ := withReg_next h
    split <;> exact ⟨rfl, rfl, fun _ => rfl⟩
  case int | push | pop | call | jmp | inc | dec | not | ldi =>
    obtain ⟨-, rfl⟩ := withReg_next h
    exact ⟨rfl, rfl, fun _ => rfl⟩
  case div | mod =>
    obtain ⟨-, -, rfl⟩ := withRegs_next h
    split <;> exact ⟨rfl, rfl, fun _ => rfl⟩
  case ld | st | add | sub | mul | cmp | and | or | xor | shl | shr =>
    obtain ⟨-, -, rfl⟩ := withRegs_next h
    exact ⟨rfl, rfl, fun _ => rfl⟩

theorem exec_ir {i : Instr} {s t : State} (h : exec i s = .next t) : t.ir = s.ir := (exec_ir_inputs_trace h).1

/-- Only IRET writes `ie`: any other action commutes with a write of it, so with writing back the value it has. -/
theorem exec_ie {i : Instr} {s t : State} (hi : i ≠ .iret) (h : exec i s = .next t) : t.ie = s.ie := by
  have hcomm : exec i s = mapNext (fun u => u.setIe s.ie) (exec i s) := exec_setIe hi s s.ie
  rw [h] at hcomm
  have hsame : t = t.setIe s.ie := Host.Outcome.next.inj hcomm
  rw [hsame, setIe_ie]

/-! ### what an action does to the stop of the core -/

/-- The run state, its cause and information, and the signals issued are the same. -/
structure SameStop (s t : State) : Prop where
  run_kept : t.run = s.run
  cause_kept : t.cause = s.cause
  info_kept : t.info = s.info
  signals_kept : t.signals = s.signals

theorem SameStop.refl (s : State) : SameStop s s := ⟨rfl, rfl, rfl, rfl⟩

theorem finishTick_sameStop (s : State) : SameStop s (finishTick s) :=
  ⟨finishTick_run s, finishTick_cause s, finishTick_info s, finishTick_signals s⟩

theorem interruptEntry_sameStop (i : Line) (s : State) : SameStop s (interruptEntry i s) :=
  ⟨interruptEntry_run s i, interruptEntry_cause s i, interruptEntry_info s i, interruptEntry_signals s i⟩

/-- Everything a completed action can do to the stop of the core: nothing, HLT's stop, or the fatal stop of a DIV or MOD
whose second register holds 0 (60_exceptions.md R230, R234). -/
theorem exec_stop_cases {i : Instr} {s t : State} (h : exec i s = .next t) :
    SameStop s t ∨
    (i = .hlt ∧ t = stopByHalt s) ∨
    ∃ a b, (i = .div a b ∨ i = .mod a b) ∧ isRegister a = true ∧ isRegister b = true ∧ s.reg (regNamed b) = 0#8 ∧
      t = raiseFatal .divZero s.ir s := by
  cases i
  case hlt => cases h; exact .inr (.inl ⟨rfl, rfl⟩)
  case div | mod =>
    obtain ⟨ha, hb, rfl⟩ := withRegs_next h
    split
    next hzero => exact .inr (.inr ⟨_, _, by simp, ha, hb, hzero, rfl⟩)
    next => exact .inl ⟨rfl, rfl, rfl, rfl⟩
  case nop | ret => cases h; exact .inl ⟨rfl, rfl, rfl, rfl⟩
  case iret =>
    obtain rfl := iret_next h
    exact .inl ⟨interruptReturn_run s, interruptReturn_cause s, interruptReturn_info s, interruptReturn_signals s⟩
  case jeq | jne | jgt | jlt | jle | jge =>
    obtain ⟨-, rfl⟩ := withReg_next h
    split <;> exact .inl ⟨rfl, rfl, rfl, rfl⟩
  case int | push | pop | prn | pra | call | jmp | inc | dec | not | ldi =>
    obtain ⟨-, rfl⟩ := withReg_next h
    exact .inl ⟨rfl, rfl, rfl, rfl⟩
  case ld | st | add | sub | mul | cmp | and | or | xor | shl | shr =>
    obtain ⟨-, -, rfl⟩ := withRegs_next h
    exact .inl ⟨rfl, rfl, rfl, rfl⟩

/-- All but HLT, DIV and MOD leave the stop of the core alone. -/
theorem exec_sameStop {i : Instr} {s t : State} (hi : i.mnemonic ∉ [.HLT, .DIV, .MOD]) (h : exec i s = .next t) :
    SameStop s t := by
  rcases exec_stop_cases h with hsame | ⟨rfl, -⟩ | ⟨a, b, rfl | rfl, -⟩
  · exact hsame
  all_goals exact absurd (by simp [Instr.mnemonic]) hi

/-- Settles O29: registers, memory, IR, schedule, trace, `ie` and stop, each by its own lemma. -/
theorem everyInstructionKeepsItsFrame : Obligations.EveryInstructionKeepsItsFrame := by
  intro i s t h
  obtain ⟨hir, hinputs, htrace⟩ := exec_ir_inputs_trace h
  refine ⟨fun r hr => exec_reg_of_not_mem h hr,
    fun a ha => exec_read_of_no_write i s t a h (write_not_mem_actionAccesses ha), hir, hinputs, htrace,
    fun hi => exec_ie ?_ h, fun hi => ?_⟩
  · rintro rfl
    exact hi rfl
  · obtain ⟨hrun, hcause, hinfo, hsignals⟩ := exec_sameStop hi h
    exact ⟨hrun, hcause, hinfo, hsignals⟩

end Sys2Proof.Machine
end

section
/-! The invariant (`Safety.Inv`): reset meets it and every step keeps it, and the three reasons for which a tick stops
the core (60_exceptions.md R230, R234). -/

namespace Sys2Proof.Machine

open Sys2Proof.Safety

/-! ### what steps 2 to 6 answer -/

/-- On the bytes of an instruction steps 2 to 6 are its action on the fetched state, and the advance. -/
theorem instructionPhase_of_decode {s : State} {i : Instr} {rest : List Byte}
    (h : decode [s.mem.read s.pc, s.mem.read (s.pc + 1), s.mem.read (s.pc + 2)] = .ok (i, rest)) :
    instructionPhase s = execThenAdvance i (afterFetch s) := by
  obtain ⟨row, hrow, rfl⟩ := decode_three h
  exact instructionPhase_of_hit hrow

/-- On a byte outside the map steps 2 to 6 are the fetch of the opcode and the fatal stop
(40_execution_cycle.md R123). -/
theorem instructionPhase_of_illegal {s : State} (h : isOpcode (s.mem.read s.pc) = false) :
    instructionPhase s = .next (raiseFatal .invalidOpcode (s.mem.read s.pc) (fetchOpcode s)) := by
  rcases instructionPhase_cases s with ⟨-, e⟩ | ⟨row, hrow, -⟩
  · exact e
  · cases (isOpcode_eq_false.mp h).symm.trans hrow

/-- An encoding of three bytes leaves nothing of the three bytes read. -/
theorem encode_eq_three {b0 b1 b2 : Byte} {i : Instr} {rest : List Byte} (h : [b0, b1, b2] = encode i ++ rest)
    (hlen : (encode i).length = 3) : encode i = [b0, b1, b2] :=
  (List.append_inj_left ((List.append_nil _).trans h) hlen.symm).symm

/-- Everything steps 2 to 6 can answer as a next state: the fatal stop of a byte outside the map, or the decoded
instruction's completed action after step 6. -/
theorem instructionPhase_next {s t : State} (h : instructionPhase s = .next t) :
    (isOpcode (s.mem.read s.pc) = false ∧ t = raiseFatal .invalidOpcode (s.mem.read s.pc) (fetchOpcode s)) ∨
    ∃ i rest v, [s.mem.read s.pc, s.mem.read (s.pc + 1), s.mem.read (s.pc + 2)] = encode i ++ rest ∧
      exec i (afterFetch s) = .next v ∧ t = finishTick v := by
  rcases instructionPhase_cases s with ⟨hmiss, e⟩ | ⟨row, hrow, e⟩
  · exact .inl ⟨isOpcode_eq_false.mpr hmiss, Host.Outcome.next.inj (h.symm.trans e)⟩
  · obtain ⟨v, hexec, rfl⟩ := execThenAdvance_next _ (e.symm.trans h)
    obtain ⟨rest, hdec⟩ := decode_three_of_lookupOpcode hrow (wellFormed_of_exec_next hexec)
    obtain ⟨-, hbytes⟩ := encode_decode hdec
    exact .inr ⟨_, rest, v, hbytes, hexec, rfl⟩

/-- What holds once the schedule has moved on, and after each event that is due, holds after the delivery. -/
theorem deliverInputs_induction {P : State → Prop} {s : State} (hstart : P { s with inputs := s.inputs.tail })
    (hevent : ∀ e ∈ s.dueInputs, ∀ u, P u → P (applyInput u e)) : P (deliverInputs s) :=
  List.foldlRecOn s.dueInputs applyInput hstart fun u hu e he => hevent e he u hu

/-! ### the record of the stop -/

theorem stopIsRecorded_of_running {s : State} (hr : s.run = .running) :
    StopIsRecorded s ↔ s.cause = .none ∧ s.info = 0#8 ∧ s.signals = [] := by
  rw [StopIsRecorded, hr]

theorem stopIsRecorded_of_halted {s : State} (hr : s.run = .halted) :
    StopIsRecorded s ↔ s.info = s.ir ∧
      ((s.cause = .hlt ∧ s.ir = 0x01#8 ∧ s.signals = [.stop]) ∨
       (s.cause = .invalidOpcode ∧ isOpcode s.ir = false ∧ s.signals = [.diag .invalidOpcode s.ir, .stop]) ∨
       (s.cause = .divZero ∧ (s.ir = 0xA3#8 ∨ s.ir = 0xA4#8) ∧ s.signals = [.diag .divZero s.ir, .stop])) := by
  rw [StopIsRecorded, hr]

/-- The record depends on the stop and on IR alone. -/
theorem SameStop.stopIsRecorded {s t : State} (h : SameStop s t) (hir : t.ir = s.ir) (hs : StopIsRecorded s) :
    StopIsRecorded t := by
  obtain ⟨hrun, hcause, hinfo, hsignals⟩ := h
  rw [StopIsRecorded, hrun, hcause, hinfo, hsignals, hir]
  exact hs

/-- While the core runs the record does not depend on IR. -/
theorem SameStop.stopIsRecorded_of_running {s t : State} (h : SameStop s t) (hr : s.run = .running)
    (hs : StopIsRecorded s) : StopIsRecorded t := by
  obtain ⟨hrun, hcause, hinfo, hsignals⟩ := h
  rw [Machine.stopIsRecorded_of_running (hrun.trans hr), hcause, hinfo, hsignals]
  exact (Machine.stopIsRecorded_of_running hr).mp hs

/-- A reset starts the record anew, and no other event touches it. -/
theorem applyInput_stopIsRecorded (e : Input) {s : State} (hs : StopIsRecorded s) :
    StopIsRecorded (applyInput s e) := by
  cases e with
  | raiseInterrupt i => exact hs
  | poke a v => exact hs
  | deviceWrite a v => exact hs
  | reset => exact ⟨rfl, rfl, rfl⟩

/-- A running core's action leaves the stop recorded: it stops nothing, or its record is that of HLT or of DIV_ZERO. -/
theorem exec_stopIsRecorded {i : Instr} {s t : State} (hr : s.run = .running) (hs : StopIsRecorded s)
    (hir : s.ir = opcodeOf i) (h : exec i s = .next t) : StopIsRecorded t := by
  obtain ⟨-, -, hsignals⟩ := (stopIsRecorded_of_running hr).mp hs
  rcases exec_stop_cases h with hsame | ⟨rfl, rfl⟩ | ⟨a, b, hi, -, -, -, rfl⟩
  · exact hsame.stopIsRecorded_of_running hr hs
  · refine (stopIsRecorded_of_halted rfl).mpr ⟨rfl, .inl ⟨rfl, hir, ?_⟩⟩
    rw [stopByHalt_signals, hsignals, List.nil_append]
  · refine (stopIsRecorded_of_halted rfl).mpr ⟨rfl, .inr (.inr ⟨rfl, ?_, ?_⟩)⟩
    · rcases hi with rfl | rfl
      · exact .inl hir
      · exact .inr hir
    · rw [raiseFatal_signals, hsignals, List.nil_append, raiseFatal_ir]

/-! ### the invariant -/

/-- Step 1 of a running core's tick keeps the invariant. -/
theorem interruptPhase_inv {s : State} (hr : s.run = .running) (hs : Inv s) : Inv (interruptPhase s) := by
  obtain ⟨hwf, hstop⟩ := hs
  rcases interruptPhase_cases s with ⟨-, e⟩ | ⟨i, -, e⟩ <;> rw [e]
  · exact ⟨hwf, hstop⟩
  · exact ⟨interruptEntry_wf i hwf, (interruptEntry_sameStop i s).stopIsRecorded_of_running hr hstop⟩

/-- Steps 2 to 6 of a running core's tick keep the invariant. -/
theorem instructionPhase_inv {s t : State} (hr : s.run = .running) (hs : Inv s) (h : instructionPhase s = .next t) :
    Inv t := by
  obtain ⟨hwf, hstop⟩ := hs
  rcases instructionPhase_next h with ⟨hop, rfl⟩ | ⟨i, rest, v, hbytes, hexec, rfl⟩
  · obtain ⟨-, -, hsignals⟩ := (stopIsRecorded_of_running hr).mp hstop
    refine ⟨hwf, (stopIsRecorded_of_halted rfl).mpr ⟨rfl, .inr (.inl ⟨rfl, hop, ?_⟩)⟩⟩
    rw [raiseFatal_signals, fetchOpcode_signals, hsignals, List.nil_append, raiseFatal_ir, fetchOpcode_ir]
  · have hir : (afterFetch s).ir = opcodeOf i := (List.cons.inj hbytes).1
    have hfetch : SameStop s (afterFetch s) := ⟨rfl, rfl, rfl, rfl⟩
    have hfetched : StopIsRecorded (afterFetch s) := hfetch.stopIsRecorded_of_running hr hstop
    have hacted : StopIsRecorded v := exec_stopIsRecorded (s := afterFetch s) hr hfetched hir hexec
    refine ⟨?_, (finishTick_sameStop v).stopIsRecorded (finishTick_ir v) hacted⟩
    rw [finishTick_mem]
    exact exec_wf i _ v hexec hwf

/-- Settles O49: nothing is issued at reset, and memory is the one given. -/
theorem resetMeetsTheInvariant : Obligations.ResetMeetsTheInvariant :=
  ⟨⟨reset_mem_wf, rfl, rfl, rfl⟩, fun _ hm => ⟨hm, rfl, rfl, rfl⟩⟩

/-- Settles O50: the events keep the invariant, a halted tick changes nothing, and a running one keeps it phase by
phase. -/
theorem stepKeepsTheInvariant : Obligations.StepKeepsTheInvariant := by
  rintro s t ⟨hwf, hstop⟩ h
  have hdelivered : Inv (deliverInputs s) :=
    ⟨deliverInputs_wf hwf, deliverInputs_induction (P := StopIsRecorded) hstop fun e _ _ => applyInput_stopIsRecorded e⟩
  cases hr : (deliverInputs s).run with
  | halted =>
    obtain rfl := Host.Outcome.next.inj ((tick_halted _ hr).symm.trans h)
    exact hdelivered
  | running =>
    rw [step_running hr] at h
    exact instructionPhase_inv ((interruptPhase_run _).trans hr) (interruptPhase_inv hr hdelivered) h

/-! ### the reasons for a stop -/

/-- Settles O10: after the interrupt phase the instruction phase is the fetch of the opcode and the fatal stop. -/
theorem invalidOpcodeHaltsBeforeTheOperandRead : Obligations.InvalidOpcodeHaltsBeforeTheOperandRead := by
  rintro s u hr rfl hop
  refine ⟨_, (step_running hr).trans (instructionPhase_of_illegal hop), rfl, rfl, rfl, rfl, rfl, fun _ => rfl, rfl, rfl,
    fun _ => rfl, rfl, rfl, rfl⟩

/-- Settles O11: a byte outside the map stops the core, and of the actions only HLT's and that of a DIV or MOD with a
zero second operand. -/
theorem onlyThreeCausesStopTheCore : Obligations.OnlyThreeCausesStopTheCore := by
  rintro s u t hr rfl h hhalted
  rw [step_running hr] at h
  rcases instructionPhase_next h with ⟨hop, rfl⟩ | ⟨i, rest, v, hbytes, hexec, rfl⟩
  · exact ⟨rfl, rfl, .inl ⟨rfl, hop⟩⟩
  have hir : v.ir = (afterFetch (interruptPhase (deliverInputs s))).ir := exec_ir hexec
  have hopcode := (List.cons.inj hbytes).1
  rw [finishTick_run] at hhalted
  rw [finishTick_ir, finishTick_info, finishTick_cause, hir]
  rcases exec_stop_cases hexec with hsame | ⟨rfl, rfl⟩ | ⟨a, b, hi, ha, hb, hzero, rfl⟩
  · cases hhalted.symm.trans (hsame.run_kept.trans ((interruptPhase_run _).trans hr))
  · exact ⟨rfl, rfl, .inr (.inl ⟨rfl, hopcode⟩)⟩
  · refine ⟨rfl, rfl, .inr (.inr ⟨rfl, regNamed a, regNamed b, hzero, ?_⟩)⟩
    rw [regByte_regNamed ha, regByte_regNamed hb]
    rcases hi with rfl | rfl
    · exact .inl (encode_eq_three hbytes rfl)
    · exact .inr (encode_eq_three hbytes rfl)

end Sys2Proof.Machine
end

section
/-! The instructions that touch registers, flags or the output trace only: the ALU (41_alu.md), LDI, PRN, PRA, NOP and
HLT (45_data_io_system.md) and INT (44_interrupt_instructions.md R200). -/

namespace Sys2Proof.Machine

open Sys2Proof.Safety

/-! ### frames -/

/-- Nothing changes from a state to itself: every frame below is this one but for the fields its update touches. -/
theorem onlyChanges_refl (s : State) : OnlyChanges [] [] s s where
  regs_kept _ _ := rfl
  mem_kept _ _ := rfl
  ir_kept := rfl
  ie_kept := rfl
  run_kept := rfl
  cause_kept := rfl
  info_kept := rfl
  trace_kept := rfl
  signals_kept := rfl
  inputs_kept := rfl

/-- A register write adds that register to a frame. -/
theorem onlyChanges_setReg {regs : List Reg} {cells : List Byte} {s t : State} (h : OnlyChanges regs cells s t)
    (d : Reg) (v : Byte) : OnlyChanges (d :: regs) cells s (t.setReg d v) :=
  { h with
    regs_kept := fun r hr => by
      rw [List.mem_cons, not_or] at hr
      rw [setReg_reg_ne _ _ _ _ hr.1, h.regs_kept r hr.2] }

/-- A register write has the frame of an instruction that touches that register alone. -/
theorem setReg_onlyRegistersChange (s : State) (d : Reg) (v : Byte) : OnlyRegistersChange [d] s (s.setReg d v) :=
  { onlyChanges_setReg (onlyChanges_refl s) d v with pc_kept := rfl, fl_kept := rfl, bus_kept := rfl }

/-- A write of FL has the frame of CMP. -/
theorem setFl_onlyChanges (s : State) (v : Byte) : OnlyChanges [] [] s (s.setFl v) := { onlyChanges_refl s with }

/-- A write of PC has the frame of a jump. -/
theorem setPc_onlyPcChanges (s : State) (v : Byte) : OnlyPcChanges s (s.setPc v) :=
  { onlyChanges_refl s with fl_kept := rfl, bus_kept := rfl }

/-! ### ALU operations into the destination register (41_alu.md R140) -/

/-- A two-operand operation completes, with its result in the destination and nothing else changed; `P` is what is
further to be said of the state it leaves. -/
theorem aluBinary_regByte {f : Byte → Byte → Byte} {P : State → Prop} (d r : Reg) (s : State)
    (hP : ∀ t, t.reg d = f (s.reg d) (s.reg r) → P t) :
    ∃ t, aluBinary f (regByte d) (regByte r) s = .next t ∧ OnlyRegistersChange [d] s t ∧ P t :=
  ⟨_, withRegs_regByte d r _, setReg_onlyRegistersChange s d _, hP _ (setReg_reg_same s d _)⟩

/-- The same for a one-operand operation. -/
theorem aluUnary_regByte {f : Byte → Byte} {P : State → Prop} (d : Reg) (s : State)
    (hP : ∀ t, t.reg d = f (s.reg d) → P t) :
    ∃ t, aluUnary f (regByte d) s = .next t ∧ OnlyRegistersChange [d] s t ∧ P t :=
  ⟨_, withReg_regByte d _, setReg_onlyRegistersChange s d _, hP _ (setReg_reg_same s d _)⟩

/-- DIV and MOD by zero are the fatal stop, with nothing written (41_alu.md R148, R149). -/
theorem aluDivide_regByte_zero {f : Byte → Byte → Byte} {d r : Reg} {s : State} (hr : s.reg r = 0#8) :
    aluDivide f (regByte d) (regByte r) s = .next (raiseFatal .divZero s.ir s) := by
  rw [aluDivide, withRegs_regByte, aluSecondOperand, if_pos hr]

/-- With a non-zero second operand they are a two-operand operation like the others. -/
theorem aluDivide_regByte {f : Byte → Byte → Byte} {P : State → Prop} (d : Reg) {r : Reg} {s : State}
    (hr : s.reg r ≠ 0#8) (hP : ∀ t, t.reg d = f (s.reg d) (s.reg r) → P t) :
    ∃ t, aluDivide f (regByte d) (regByte r) s = .next t ∧ OnlyRegistersChange [d] s t ∧ P t := by
  refine ⟨_, ?_, setReg_onlyRegistersChange s d _, hP _ (setReg_reg_same s d _)⟩
  rw [aluDivide, withRegs_regByte, aluSecondOperand, if_neg hr]

/-- A byte's difference is the integer difference modulo 256. -/
theorem toNat_sub_emod (x y : Byte) : ((x - y).toNat : Int) = ((x.toNat : Int) - (y.toNat : Int)) % 256 := by
  have hy : y.toNat < 256 := y.isLt
  rw [BitVec.toNat_sub]
  omega

/-- Settles O31: each is a bitwise operation of `BitVec`, written to the destination. -/
theorem logicInstructionsWorkBitByBit : Obligations.LogicInstructionsWorkBitByBit := fun d r s =>
  ⟨aluBinary_regByte d r s fun _ ht _ => by rw [ht, BitVec.getLsbD_and],
   aluBinary_regByte d r s fun _ ht _ => by rw [ht, BitVec.getLsbD_or],
   aluBinary_regByte d r s fun _ ht _ => by rw [ht, BitVec.getLsbD_xor],
   aluUnary_regByte d s fun _ ht => by rw [ht, BitVec.toNat_not]⟩

/-- Settles O32: each is an arithmetic operation of `BitVec`, written to the destination. -/
theorem arithmeticInstructionsWrapModulo256 : Obligations.ArithmeticInstructionsWrapModulo256 := fun d r s =>
  ⟨aluBinary_regByte d r s fun _ ht => by rw [ht, BitVec.toNat_add],
   aluBinary_regByte d r s fun _ ht => by rw [ht, toNat_sub_emod],
   aluBinary_regByte d r s fun _ ht => by rw [ht, BitVec.toNat_mul],
   aluUnary_regByte (f := fun x => x + 1#8) d s fun _ ht => by rw [ht, BitVec.toNat_add]; rfl,
   aluUnary_regByte (f := fun x => x - 1#8) d s fun _ ht => by rw [ht, toNat_sub_emod]; rfl⟩

/-- Settles O33: the unsigned quotient and remainder of `BitVec`, written to the destination. -/
theorem divAndModDivideUnsigned : Obligations.DivAndModDivideUnsigned := fun d _ _ hr =>
  ⟨aluDivide_regByte d hr fun _ ht => by rw [ht, BitVec.toNat_udiv],
   aluDivide_regByte d hr fun _ ht => by rw [ht, BitVec.toNat_umod]⟩

/-- After a fatal stop there is no step 6 (40_execution_cycle.md R127). -/
theorem finishTick_raiseFatal {c : Cause} (hc : c ≠ .hlt) (v : Byte) (s : State) :
    finishTick (raiseFatal c v s) = raiseFatal c v s :=
  if_pos (by simp [endsTick, hc])

/-- Settles O34: the action is the fatal stop, which ends the tick. -/
theorem divideByZeroHaltsAndWritesNothing : Obligations.DivideByZeroHaltsAndWritesNothing := by
  intro d r s i hr hi
  have hexec : exec i s = .next (raiseFatal .divZero s.ir s) := by
    rcases hi with rfl | rfl <;> exact aluDivide_regByte_zero hr
  refine ⟨_, hexec, ?_, rfl, rfl, rfl, rfl, rfl⟩
  rw [execThenAdvance_of_next hexec, finishTick_raiseFatal (by decide)]

/-- No flag is above bit 2 of FL (10_state.md R27), so setting one leaves the bits above as they were. -/
theorem setFlag_getLsbD_high (f : Flag) (v : Bool) (fl : Byte) {k : Nat} (hk : 3 ≤ k) :
    (setFlag f v fl).getLsbD k = fl.getLsbD k := by
  have hlt : flagIndex f < 3 := by cases f <;> decide
  rw [setFlag_getLsbD, if_neg (Nat.ne_of_gt (Nat.lt_of_lt_of_le hlt hk))]

/-- CMP keeps the bits above the three flags (41_alu.md R152). -/
theorem compareFlags_getLsbD_high (a b fl : Byte) {k : Nat} (hk : 3 ≤ k) :
    (compareFlags a b fl).getLsbD k = fl.getLsbD k := by
  rw [compareFlags, setFlag_getLsbD_high _ _ _ hk, setFlag_getLsbD_high _ _ _ hk, setFlag_getLsbD_high _ _ _ hk]

/-- Settles O35: each flag is set at its own bit and kept when the others are set. -/
theorem cmpSetsTheThreeFlags : Obligations.CmpSetsTheThreeFlags := by
  refine fun d r s => ⟨_, withRegs_regByte d r _, ?eq, ?gt, ?lt, fun k hk => compareFlags_getLsbD_high _ _ _ hk,
    setFl_onlyChanges s _, rfl, rfl⟩
  all_goals simp only [setFl_fl, compareFlags, setFlag_getLsbD]; rfl

/-- Settles O36: the two shifts of `BitVec` by the low three bits, written to the destination. -/
theorem shiftsUseTheLowThreeBits : Obligations.ShiftsUseTheLowThreeBits := fun d r s =>
  ⟨aluBinary_regByte (f := fun x y => x <<< shiftAmount y) d r s fun _ ht => by
     rw [ht, BitVec.toNat_shiftLeft, Nat.shiftLeft_eq, shiftAmount],
   aluBinary_regByte (f := fun x y => x >>> shiftAmount y) d r s fun _ ht => by
     rw [ht, BitVec.toNat_ushiftRight, Nat.shiftRight_eq_div_pow, shiftAmount]⟩

/-! ### INT, LDI, output, NOP and HLT -/

/-- Settles O19: INT writes the bitwise or to IM. -/
theorem intUnmasksTheLinesOfTheRegister : Obligations.IntUnmasksTheLinesOfTheRegister := by
  refine fun d s => ⟨_, withReg_regByte d _, fun k => ?_, setReg_onlyRegistersChange s imReg _⟩
  rw [setReg_reg_same, BitVec.getLsbD_or]

/-- Settles O46: LDI writes its operand byte. -/
theorem ldiLoadsTheImmediate : Obligations.LdiLoadsTheImmediate := fun d imm s =>
  ⟨_, withReg_regByte d _, setReg_reg_same s d imm, setReg_onlyRegistersChange s d imm⟩

/-- Settles O47: both are one `emit`. -/
theorem prnAndPraEmitOneRecord : Obligations.PrnAndPraEmitOneRecord := fun d s =>
  ⟨⟨_, withReg_regByte d _, emit_trace s (s.reg d) .num, rfl⟩,
   ⟨_, withReg_regByte d _, emit_trace s (s.reg d) .chr, rfl⟩⟩

/-! ### step 6 (40_execution_cycle.md R126, R127) -/

/-- With SETSPC set step 6 changes nothing. -/
theorem finishTick_of_setsPc {s : State} (h : s.ir.getLsbD 4 = true) : finishTick s = s := by
  rw [finishTick, advancePc, setsPcBit, if_pos h, ite_self]

/-- With SETSPC clear, on a running core and after HLT, step 6 adds 1 and the operand count to PC. -/
theorem finishTick_of_not_setsPc {s : State} (h : s.ir.getLsbD 4 = false) (hgo : s.run = .running ∨ s.cause = .hlt) :
    finishTick s = s.setPc (s.pc + 1 + operandCountOf s.ir) := by
  have hgoes : endsTick s = false := by
    rcases hgo with hrun | hcause
    · simp [endsTick, hrun]
    · simp [endsTick, hcause]
  rw [finishTick, hgoes, advancePc, setsPcBit, h]
  rfl

/-- The advance in numbers: 1 plus bits 7:6, modulo 256. -/
theorem advance_toNat (pc op : Byte) : (pc + 1 + operandCountOf op).toNat = (pc.toNat + 1 + op.toNat / 64) % 256 := by
  rw [BitVec.toNat_add, BitVec.toNat_add, operandCountOf_toNat, Nat.mod_add_mod]
  rfl

/-- Steps 5 and 6 of an instruction with SETSPC clear, where the tick reaches step 6: the action leaves PC, and step 6
advances it by the opcode's bits 7:6 and changes nothing else. -/
theorem execThenAdvance_of_not_setsPc {i : Instr} {u t : State} (hir : u.ir = opcodeOf i) (h : exec i u = .next t)
    (hclear : (opcodeOf i).getLsbD 4 = false) (hgo : t.run = .running ∨ t.cause = .hlt) :
    ∃ v, execThenAdvance i u = .next v ∧ v.pc.toNat = (u.pc.toNat + 1 + (opcodeOf i).toNat / 64) % 256 ∧
      v = t.setPc v.pc := by
  have hopcode : t.ir = opcodeOf i := (exec_ir h).trans hir
  refine ⟨_, execThenAdvance_of_next h, ?_, ?_⟩
  all_goals rw [finishTick_of_not_setsPc (hopcode ▸ hclear) hgo, setPc_pc]
  rw [advance_toNat, exec_pc i u t h hclear, hopcode]

/-- Settles O9: step 6 by the two fields of the opcode, and no action of an opcode with SETSPC clear writes PC. -/
theorem pcAdvancesByTheOpcodeFields : Obligations.PcAdvancesByTheOpcodeFields := by
  refine ⟨fun i => ?bit, fun i u t hir h => ⟨fun hset => ?set, fun hclear => ?clear⟩⟩
  case bit =>
    rw [opcodeOf_getLsbD_four]
    exact i.mnemonic.setsPc_iff_mem
  case set => rw [execThenAdvance_of_next h, finishTick_of_setsPc (exec_ir h ▸ hset)]
  case clear =>
    rw [hir] at hclear ⊢
    exact ⟨exec_pc i u t h hclear, execThenAdvance_of_not_setsPc hir h hclear⟩

/-- Settles O27: HLT's stop leaves the rest, and its tick reaches step 6. -/
theorem hltStopsAfterItsOwnTick : Obligations.HltStopsAfterItsOwnTick := fun s =>
  ⟨stopByHalt s, rfl, rfl, rfl, rfl, rfl, rfl, fun hir => execThenAdvance_of_not_setsPc hir rfl rfl (.inr rfl)⟩

/-- Settles O28: the action is the identity, and a running core's tick reaches step 6. -/
theorem nopOnlyAdvancesPc : Obligations.NopOnlyAdvancesPc := fun _ =>
  ⟨rfl, fun hrun hir => execThenAdvance_of_not_setsPc hir rfl rfl (.inl hrun)⟩

end Sys2Proof.Machine
end

section
/-! The jumps, CALL and RET (42_control_flow.md), PUSH and POP (43_stack.md section 2), LD and ST
(45_data_io_system.md section 1). -/

namespace Sys2Proof.Machine

open Sys2Proof.Safety

/-! ### jumps -/

/-- The address behind a two-byte jump, in numbers. -/
theorem pc_add_two_toNat (pc : Byte) : (pc + 2#8).toNat = (pc.toNat + 2) % 256 := BitVec.toNat_add pc 2#8

/-- A conditional jump completes, going to the register's value where its condition holds and else behind itself, and
changes PC alone (42_control_flow.md R173). -/
theorem jumpIf_regByte {cond : Byte → Bool} {p : Prop} [Decidable p] (d : Reg) (s : State)
    (hcond : cond s.fl = true ↔ p) :
    ∃ t, jumpIf cond (regByte d) s = .next t ∧ OnlyPcChanges s t ∧
      t.pc.toNat = if p then (s.reg d).toNat else (s.pc.toNat + 2) % 256 := by
  rw [jumpIf, withReg_regByte]
  by_cases hp : p
  · rw [if_pos (hcond.mpr hp), if_pos hp]
    exact ⟨_, rfl, setPc_onlyPcChanges s _, rfl⟩
  · rw [if_neg (mt hcond.mp hp), if_neg hp]
    exact ⟨_, rfl, setPc_onlyPcChanges s _, pc_add_two_toNat s.pc⟩

/-- Settles O37: JMP writes PC, and each conditional jump's condition is the one the statement names. -/
theorem jumpsFollowTheirConditions : Obligations.JumpsFollowTheirConditions := by
  refine fun d s => ⟨⟨_, withReg_regByte d _, setPc_onlyPcChanges s _, rfl⟩, jumpIf_regByte d s .rfl, ?jne,
    jumpIf_regByte d s .rfl, jumpIf_regByte d s (Bool.or_eq_true ..).to_iff, jumpIf_regByte d s .rfl,
    jumpIf_regByte d s (Bool.or_eq_true ..).to_iff⟩
  case jne =>
    have hcond : condJne s.fl = true ↔ ¬ s.fl.getLsbD 0 = true := by
      rw [condJne, Bool.not_eq_true', Bool.not_eq_true]
      rfl
    have hjump := jumpIf_regByte d s hcond
    simp only [ite_not] at hjump
    exact hjump

/-! ### frames -/

/-- A write of PC keeps a frame. -/
theorem onlyChanges_setPc {regs : List Reg} {cells : List Byte} {s t : State} (h : OnlyChanges regs cells s t)
    (v : Byte) : OnlyChanges regs cells s (t.setPc v) := { h with }

/-- A read changes nothing a frame speaks of. -/
theorem memRead_onlyChanges (a : Byte) (s : State) : OnlyChanges [] [] s (memRead a s).2 := { onlyChanges_refl s with }

/-- A store changes the byte at its address. -/
theorem memWrite_onlyChanges (a v : Byte) (s : State) : OnlyChanges [] [a] s (memWrite a v s) :=
  { onlyChanges_refl s with mem_kept := fun _ hb => read_write_ne _ _ (List.ne_of_not_mem_cons hb) }

/-- `Push` changes SP and the byte below the old SP. -/
theorem push_onlyChanges_below (v : Byte) (s : State) : OnlyChanges [spReg] [s.reg spReg - 1] s (push v s) :=
  push_reg_sp v s ▸ push_onlyChanges v s

/-- `Push` stores below the old SP. -/
theorem push_read_below (v : Byte) (s : State) : (push v s).mem.read (s.reg spReg - 1) = v := read_write_same _ _ _

/-! ### CALL and RET -/

/-- Settles O38: CALL is a `Push` of `pc + 2` and a write of PC. -/
theorem callPushesTheReturnAddressAndJumps : Obligations.CallPushesTheReturnAddressAndJumps := by
  refine fun d s => ⟨_, withReg_regByte d _, ?stored, push_reg_sp (s.pc + 2#8) s, push_reg s d (s.pc + 2#8),
    onlyChanges_setPc (push_onlyChanges_below _ s) _, rfl, rfl⟩
  case stored => rw [setPc_mem, push_read_below, pc_add_two_toNat]

/-- Settles O39: RET is a `Pop` into PC. -/
theorem retPopsPc : Obligations.RetPopsPc := fun s =>
  ⟨popPc s, rfl, rfl, by rw [popPc_reg, if_pos rfl, BitVec.toNat_add]; rfl, onlyChanges_setPc (pop_onlyChanges s) _,
   rfl, rfl⟩

/-- Settles O40: RET pops from where CALL pushed. -/
theorem retReturnsBehindTheCall : Obligations.RetReturnsBehindTheCall := by
  intro d s t u h hsp hstacked
  obtain rfl := Host.Outcome.next.inj ((withReg_regByte d _).symm.trans h)
  rw [setPc_reg, push_reg_sp] at hsp hstacked
  refine ⟨popPc u, rfl, ?_, ?_⟩
  · rw [popPc_pc, hsp, hstacked, setPc_mem, push_read_below, pc_add_two_toNat]
  · rw [popPc_reg, if_pos rfl, hsp, BitVec.sub_add_cancel]

/-! ### PUSH and POP -/

/-- Settles O42: PUSH is a `Push` of the register's value. -/
theorem pushStoresTheRegister : Obligations.PushStoresTheRegister := fun d s =>
  ⟨_, withReg_regByte d _, push_read_below _ s, push_reg_sp _ s, push_onlyChanges_below _ s, rfl, rfl, rfl⟩

/-- Settles O43: POP is a `Pop` and a register write after it. -/
theorem popLoadsTheRegister : Obligations.PopLoadsTheRegister := by
  refine fun d s => ⟨_, withReg_regByte d _, setReg_reg_same _ d _, fun hd => ?_,
    onlyChanges_setReg (pop_onlyChanges s) d _, rfl, rfl, rfl⟩
  rw [popReg_reg, if_neg hd.symm, if_pos rfl]

/-- Settles O44: the byte popped is the one pushed, and SP is back where it was; for R7 the byte popped is the
old SP. -/
theorem popUndoesPush : Obligations.PopUndoesPush := by
  intro d s t h
  obtain rfl := Host.Outcome.next.inj ((withReg_regByte d _).symm.trans h)
  refine ⟨_, withReg_regByte d _, fun r => ?_, rfl, rfl⟩
  rw [popReg_reg, push_read_sp, push_reg_sp, push_reg]
  by_cases hd : r = d
  · rw [if_pos hd, hd]
  · rw [if_neg hd]
    by_cases hsp : r = spReg
    · rw [if_pos hsp, hsp, BitVec.sub_add_cancel]
    · rw [if_neg hsp, if_neg hsp]

/-! ### LD and ST -/

/-- Settles O45: LD is a read and a register write, ST a store. -/
theorem ldAndStMoveOneByte : Obligations.LdAndStMoveOneByte := fun d r s =>
  ⟨⟨_, withRegs_regByte d r _, setReg_reg_same _ d _, onlyChanges_setReg (memRead_onlyChanges _ s) d _, rfl, rfl, rfl⟩,
   ⟨_, withRegs_regByte d r _, read_write_same _ _ _, memWrite_onlyChanges _ _ s, rfl, rfl, rfl⟩⟩

end Sys2Proof.Machine
end

section
/-! External events and the tick of their boundary (00_scope.md R3), reset (10_state.md R43), and a halted core until a
reset (60_exceptions.md R252). -/

namespace Sys2Proof.Machine

open Sys2Proof.Safety

/-! ### the step and the events of its boundary -/

/-- Where events are scheduled for the boundary, the step is the tick of the state after them, in order. -/
theorem step_scheduled {s : State} {events : List Input} {rest : List (List Input)} (h : s.inputs = events :: rest) :
    step s = tick (events.foldl applyInput { s with inputs := rest }) := by
  rw [step, deliverInputs, State.dueInputs, h]
  rfl

/-- With an empty schedule the step is the tick alone. -/
theorem step_unscheduled {s : State} (h : s.inputs = []) : step s = tick s := by
  have hdue : s.dueInputs = [] := by rw [State.dueInputs, h]; rfl
  have hsame : { s with inputs := s.inputs.tail } = s := by rw [h, List.tail_nil, ← h]
  rw [step, deliverInputs_nothing_due s hdue, hsame]

/-- With nothing due and no line to enter, the step of a running core is steps 2 to 6. -/
theorem step_quiet_of_no_line {s : State} (hrun : s.run = .running) (hdue : s.dueInputs = [])
    (hnone : interruptToEnter s = none) : step s = instructionPhase { s with inputs := s.inputs.tail } :=
  (step_quiet hrun hdue).trans
    (congrArg instructionPhase (interruptPhase_of_no_line (s := { s with inputs := s.inputs.tail }) hnone))

/-- With nothing due and a line to enter, it is the entry and then steps 2 to 6. -/
theorem step_quiet_of_line {i : Line} {s : State} (hrun : s.run = .running) (hdue : s.dueInputs = [])
    (hsome : interruptToEnter s = some i) :
    step s = instructionPhase (interruptEntry i { s with inputs := s.inputs.tail }) :=
  (step_quiet hrun hdue).trans
    (congrArg instructionPhase (interruptPhase_of_line (s := { s with inputs := s.inputs.tail }) hsome))

/-- With nothing due, the step of a halted core moves the schedule on and changes nothing else. -/
theorem step_quiet_of_halted {s : State} (hhalted : s.run = .halted) (hdue : s.dueInputs = []) :
    step s = .next { s with inputs := s.inputs.tail } := by
  rw [step, deliverInputs_nothing_due s hdue]
  exact tick_halted _ hhalted

/-- Settles O23: a step is the tick of what `deliverInputs` leaves, which is the events' fold, or nothing. -/
theorem externalEventsLandBeforeTheTick : Obligations.ExternalEventsLandBeforeTheTick :=
  ⟨fun _ _ _ => step_scheduled, fun _ => step_unscheduled⟩

/-- Settles O24: a poke is one write of memory, and it is the whole delivery where it is the one event due. -/
theorem pokeWritesOneByteOnly : Obligations.PokeWritesOneByteOnly :=
  ⟨fun s a v b => ⟨read_write s.mem a v b, rfl⟩, fun _ _ _ _ => step_scheduled⟩

/-- Settles O8: with nothing due, the interrupt phase is nothing or one entry, and a halted core has no phases. -/
theorem stepIsInterruptPhaseThenInstructionPhase : Obligations.StepIsInterruptPhaseThenInstructionPhase :=
  fun _ hdue => ⟨fun hrun => step_quiet_of_no_line hrun hdue, fun _ hrun => step_quiet_of_line hrun hdue,
    fun hhalted => step_quiet_of_halted hhalted hdue⟩

/-- Settles O7: the instruction phase on the bytes of an instruction. -/
theorem stepRunsTheDecodedInstruction : Obligations.StepRunsTheDecodedInstruction := by
  intro s i rest hrun hdue hnone hdec
  rw [step_quiet_of_no_line hrun hdue hnone]
  exact instructionPhase_of_decode hdec

/-! ### raising a line -/

/-- Raising a line sets its bit in IS. -/
theorem raiseInterrupt_isReg_getLsbD (n : Line) (s : State) (k : Nat) :
    ((raiseInterrupt n s).reg isReg).getLsbD k = ((s.reg isReg).getLsbD k || k == n.val) := by
  rw [raiseInterrupt, setReg_reg_same, BitVec.getLsbD_or, lineBit_getLsbD]
  rfl

/-- Raising a line leaves every other register. -/
theorem raiseInterrupt_reg_ne {r : Reg} (hr : r ≠ isReg) (n : Line) (s : State) :
    (raiseInterrupt n s).reg r = s.reg r := setReg_reg_ne _ _ _ _ hr

/-- Writing a register back changes nothing. -/
theorem setReg_self (s : State) (r : Reg) : s.setReg r (s.reg r) = s :=
  have hregs (q : Reg) : (s.setReg r (s.reg r)).reg q = s.reg q := by
    rw [setReg_reg]
    split
    next h => rw [h]
    next => rfl
  State.ext_regs hregs rfl rfl rfl rfl rfl rfl rfl rfl rfl rfl rfl rfl

/-- Settles O21: a raise is the bitwise or of the line's bit into IS. -/
theorem raiseInterruptSetsOnePendingBit : Obligations.RaiseInterruptSetsOnePendingBit := by
  refine fun n s => ⟨raiseInterrupt_isReg_getLsbD n s, setReg_onlyRegistersChange s isReg _, fun hpending => ?again⟩
  have hor : s.reg isReg ||| lineBit n = s.reg isReg := by
    refine BitVec.eq_of_getLsbD_eq fun k _ => ?_
    rw [BitVec.getLsbD_or, lineBit_getLsbD]
    by_cases hk : k = n.val
    · rw [hk, hpending, Bool.true_or]
    · rw [decide_eq_false hk, Bool.or_false]
  exact (congrArg (s.setReg isReg) hor).trans (setReg_self s isReg)

/-- Settles O22: the raise is the whole delivery, and the line it raises is the lowest eligible one. -/
theorem raisedLineIsEnteredByTheNextTick : Obligations.RaisedLineIsEnteredByTheNextTick := by
  intro s n rest hrun hinputs hie hunmasked hlow
  have helig (k : Nat) : (eligibleLines (raiseInterrupt n { s with inputs := rest })).getLsbD k =
      (((s.reg 6).getLsbD k || k == n.val) && (s.reg 5).getLsbD k) := by
    rw [eligibleLines, BitVec.getLsbD_and, raiseInterrupt_isReg_getLsbD, raiseInterrupt_reg_ne (by decide)]
    rfl
  have henter : interruptToEnter (raiseInterrupt n { s with inputs := rest }) = some n := by
    refine interruptToEnter_eq_some.mpr ⟨hie, ?_, fun j hj => ?_⟩
    · rw [helig, hunmasked, beq_self_eq_true, Bool.or_true, Bool.and_true]
    · have hne : (j.val == n.val) = false := beq_eq_false_iff_ne.mpr (Nat.ne_of_lt hj)
      rw [helig, hne, Bool.or_false, ← BitVec.getLsbD_and]
      exact hlow j hj
  rw [step_scheduled hinputs]
  refine Eq.trans (tick_running _ ?_) (congrArg instructionPhase (interruptPhase_of_line henter))
  exact hrun

/-! ### reset -/

/-- The registers after reset (10_state.md R43). -/
theorem resetWith_reg (m : Memory) (r : Reg) : (State.resetWith m).reg r = if r = 7 then 0xF4#8 else 0x00#8 := by
  revert r
  exact (by decide : ∀ r, State.reset.reg r = if r = 7 then 0xF4#8 else 0x00#8)

/-- No line is pending after reset. -/
theorem eligibleLines_resetWith (m : Memory) : eligibleLines (State.resetWith m) = 0#8 := by
  rw [eligibleLines, resetWith_reg, resetWith_reg]
  rfl

/-- Settles O25: both are `State.resetWith`, the event with the schedule kept. -/
theorem resetGivesTheSpecsValues : Obligations.ResetGivesTheSpecsValues := by
  intro m s t ht
  have hnone : interruptToEnter (State.resetWith m) = none :=
    interruptToEnter_of_eligibleLines_eq_zero (eligibleLines_resetWith m)
  have hregs := resetWith_reg m
  rcases ht with rfl | ⟨rfl, rfl⟩
  all_goals exact ⟨hregs, rfl, rfl, rfl, rfl, rfl, rfl, rfl, rfl, rfl, hnone⟩

/-! ### a halted core -/

/-- The events write no byte of memory at `a`. -/
def SparedBy (events : List Input) (a : Byte) : Prop :=
  ∀ v, Input.poke a v ∉ events ∧ Input.deviceWrite a v ∉ events

/-- The events of the next `n` boundaries write no byte of memory at `a`. -/
def SparedFor (n : Nat) (s : State) (a : Byte) : Prop := ∀ events ∈ s.inputs.take n, SparedBy events a

/-- From `s` to `t` nothing changes but the schedule, IS by raises that add bits, and bytes of memory outside `kept`. -/
structure HaltedFrame (kept : Byte → Prop) (s t : State) : Prop where
  rest_kept : { t with regs := s.regs, mem := s.mem, inputs := s.inputs } = s
  regs_kept : ∀ r, r ≠ isReg → t.reg r = s.reg r
  pending_kept : ∀ k, (s.reg isReg).getLsbD k = true → (t.reg isReg).getLsbD k = true
  mem_kept : ∀ a, kept a → t.mem.read a = s.mem.read a

theorem HaltedFrame.of_schedule (kept : Byte → Prop) (s : State) (schedule : List (List Input)) :
    HaltedFrame kept s { s with inputs := schedule } :=
  ⟨rfl, fun _ _ => rfl, fun _ h => h, fun _ _ => rfl⟩

theorem HaltedFrame.trans {kept : Byte → Prop} {s t u : State} (hst : HaltedFrame kept s t)
    (htu : HaltedFrame kept t u) : HaltedFrame kept s u where
  rest_kept := by
    have hut := congrArg (fun x : State => { x with regs := s.regs, mem := s.mem, inputs := s.inputs }) htu.rest_kept
    exact hut.trans hst.rest_kept
  regs_kept r hr := (htu.regs_kept r hr).trans (hst.regs_kept r hr)
  pending_kept k hk := htu.pending_kept k (hst.pending_kept k hk)
  mem_kept a ha := (htu.mem_kept a ha).trans (hst.mem_kept a ha)

theorem HaltedFrame.mono {kept kept' : Byte → Prop} {s t : State} (h : HaltedFrame kept s t)
    (hsub : ∀ a, kept' a → kept a) : HaltedFrame kept' s t :=
  { h with mem_kept := fun a ha => h.mem_kept a (hsub a ha) }

/-- A write from outside the core keeps every byte but the one it names. -/
theorem externalWrite_haltedFrame {kept : Byte → Prop} {a : Byte} (ha : ¬ kept a) (v : Byte) (s : State) :
    HaltedFrame kept s (externalWrite a v s) where
  rest_kept := rfl
  regs_kept _ _ := rfl
  pending_kept _ h := h
  mem_kept _ hb := read_write_ne _ _ fun heq => ha (heq ▸ hb)

/-- Each of a list of events without a reset keeps every byte the list spares. -/
theorem applyInput_haltedFrame {events : List Input} (hreset : Input.reset ∉ events) {e : Input} (he : e ∈ events)
    (s : State) : HaltedFrame (SparedBy events) s (applyInput s e) := by
  cases e with
  | raiseInterrupt n =>
    refine ⟨rfl, fun r hr => raiseInterrupt_reg_ne hr n s, fun k hk => ?_, fun _ _ => rfl⟩
    rw [applyInput, raiseInterrupt_isReg_getLsbD, hk, Bool.true_or]
  | poke a v => exact externalWrite_haltedFrame (fun hspared => (hspared v).1 he) v s
  | deviceWrite a v => exact externalWrite_haltedFrame (fun hspared => (hspared v).2 he) v s
  | reset => exact absurd he hreset

/-- So does the delivery of all that are due. -/
theorem deliverInputs_haltedFrame {s : State} (hreset : Input.reset ∉ s.dueInputs) :
    HaltedFrame (SparedBy s.dueInputs) s (deliverInputs s) :=
  deliverInputs_induction (HaltedFrame.of_schedule _ s _) fun _ he u hu => hu.trans (applyInput_haltedFrame hreset he u)

/-- The delivery takes the events of its boundary off the schedule. -/
theorem deliverInputs_inputs (s : State) : (deliverInputs s).inputs = s.inputs.tail :=
  deliverInputs_induction (P := fun u => u.inputs = s.inputs.tail) rfl fun e _ _ hu => by cases e <;> exact hu

/-- What is among the first `n` behind the head is among the first `n + 1`. -/
theorem mem_take_succ_of_mem_take_tail {α : Type} {x : α} {l : List α} {n : Nat} (h : x ∈ l.tail.take n) :
    x ∈ l.take (n + 1) := by
  cases l with
  | nil =>
    rw [List.tail_nil, List.take_nil] at h
    cases h
  | cons a rest => exact List.mem_cons_of_mem a h

/-- The events due are those of the first boundary of the schedule, or none. -/
theorem dueInputs_mem_take (n : Nat) (s : State) : s.dueInputs = [] ∨ s.dueInputs ∈ s.inputs.take (n + 1) := by
  rw [State.dueInputs]
  cases s.inputs with
  | nil => exact .inl rfl
  | cons events rest => exact .inr List.mem_cons_self

/-- A halted core's step, with no reset due, is the delivery of the events, under which it stays halted. -/
theorem step_halted {s : State} (hhalted : s.run = .halted) (hreset : Input.reset ∉ s.dueInputs) :
    step s = .next (deliverInputs s) ∧ (deliverInputs s).run = .halted := by
  have hrun : (deliverInputs s).run = .halted :=
    (congrArg State.run (deliverInputs_haltedFrame hreset).rest_kept).trans hhalted
  exact ⟨tick_halted _ hrun, hrun⟩

/-- A run of one step more is the run from the state the step answers. -/
theorem run_succ (n : Nat) {s t : State} (h : step s = .next t) :
    Sys2Proof.core.run (n + 1) s = Sys2Proof.core.run n t := by
  have hcore : Sys2Proof.core.step s = .next t := h
  simp only [Host.Core.run, hcore]

/-- Any number of steps of a halted core without a reset keep the frame of a halted core. -/
theorem run_halted (n : Nat) : ∀ s : State, s.run = .halted → NoResetScheduled s →
    ∃ t : State, Sys2Proof.core.run n s = .next t ∧ HaltedFrame (SparedFor n s) s t := by
  induction n with
  | zero => exact fun s _ _ => ⟨s, rfl, HaltedFrame.of_schedule _ s s.inputs⟩
  | succ n ih =>
    intro s hhalted hreset
    have hdue : Input.reset ∉ s.dueInputs ∧ ∀ a, SparedFor (n + 1) s a → SparedBy s.dueInputs a := by
      rcases dueInputs_mem_take n s with hnil | hmem
      · rw [hnil]
        exact ⟨List.not_mem_nil, fun _ _ _ => ⟨List.not_mem_nil, List.not_mem_nil⟩⟩
      · exact ⟨hreset _ (List.mem_of_mem_take hmem), fun a ha => ha _ hmem⟩
    obtain ⟨hstep, hstays⟩ := step_halted hhalted hdue.1
    have hinputs := deliverInputs_inputs s
    obtain ⟨t, hrun, hframe⟩ := ih (deliverInputs s) hstays fun events hevents =>
      hreset events (List.mem_of_mem_tail (hinputs ▸ hevents))
    refine ⟨t, ?_, ((deliverInputs_haltedFrame hdue.1).mono hdue.2).trans (hframe.mono fun a ha events hevents => ?_)⟩
    · rw [run_succ n hstep, hrun]
    · rw [hinputs] at hevents
      exact ha events (mem_take_succ_of_mem_take_tail hevents)

/-- Settles O26: the frame of a halted core, read field by field. -/
theorem haltedCoreStaysHaltedUntilReset : Obligations.HaltedCoreStaysHaltedUntilReset := by
  intro n s hhalted hreset
  obtain ⟨t, hrun, hrest, hregs, hpending, hmem⟩ := run_halted n s hhalted hreset
  have hkept {α : Type} (f : State → α) := congrArg f hrest
  exact ⟨t, hrun, (hkept State.run).trans hhalted, hkept State.cause, hkept State.info, hkept State.pc, hkept State.ir,
    hkept State.fl, hkept State.ie, hregs, hpending, hmem, hkept State.trace, hkept State.signals, hkept State.bus⟩

end Sys2Proof.Machine
end

section
/-! Interrupt entry, its undoing by IRET (60_exceptions.md R239, R240, R244 to R247; 44_interrupt_instructions.md R201),
the line INT unmasks, and who writes and reads FL (10_state.md R27, R29). -/

namespace Sys2Proof.Machine

open Sys2Proof.Safety

/-! ### the frame of interrupt entry -/

/-- Clearing a line's bit leaves every other bit (60_exceptions.md R239). -/
theorem getLsbD_and_not_lineBit (x : Byte) (i : Line) {k : Nat} (hk : k < 8) :
    (x &&& ~~~ lineBit i).getLsbD k = (x.getLsbD k && k != i.val) := by
  rw [BitVec.getLsbD_and, BitVec.getLsbD_not, lineBit_getLsbD, decide_eq_true hk, Bool.true_and]
  rfl

/-- Interrupt entry leaves IS with the line's bit clear. -/
theorem interruptEntry_isReg (i : Line) (s : State) : (interruptEntry i s).reg isReg = s.reg isReg &&& ~~~ lineBit i :=
  interruptEntry_reg s isReg i

/-- Interrupt entry leaves SP nine lower. -/
theorem interruptEntry_spReg (i : Line) (s : State) : (interruptEntry i s).reg spReg = s.reg spReg - 9#8 :=
  interruptEntry_reg s spReg i

/-- The nine pushes leave every byte outside their frame. -/
theorem saveContext_read_of_not_mem {s : State} {a : Byte} (ha : a ∉ frameCells (s.reg spReg)) :
    (saveContext s).mem.read a = s.mem.read a := by
  simp only [frameCells, List.mem_cons, List.not_mem_nil, or_false, not_or] at ha
  obtain ⟨h1, h2, h3, h4, h5, h6, h7, h8, h9⟩ := ha
  exact (saveContext_read s a).trans <| (if_neg h1).trans <| (if_neg h2).trans <| (if_neg h3).trans <|
    (if_neg h4).trans <| (if_neg h5).trans <| (if_neg h6).trans <| (if_neg h7).trans <| (if_neg h8).trans (if_neg h9)

/-- Interrupt entry, after `ie` is cleared, changes IS, SP and the nine bytes of its frame, PC aside. -/
theorem interruptEntry_onlyChanges (i : Line) (s : State) :
    OnlyChanges [isReg, spReg] (frameCells (s.reg spReg)) (s.setIe false) (interruptEntry i s) where
  regs_kept r hr := by
    simp only [List.mem_cons, List.not_mem_nil, or_false, not_or] at hr
    rw [interruptEntry_reg, if_neg hr.2, if_neg hr.1, setIe_reg]
  mem_kept a ha := by
    have hsp : (acknowledge i (s.setIe false)).reg spReg = s.reg spReg := acknowledge_reg _ spReg i
    rw [interruptEntry_mem]
    exact saveContext_read_of_not_mem (hsp.symm ▸ ha)
  ir_kept := interruptEntry_ir s i
  ie_kept := interruptEntry_ie s i
  run_kept := interruptEntry_run s i
  cause_kept := interruptEntry_cause s i
  info_kept := interruptEntry_info s i
  trace_kept := interruptEntry_trace s i
  signals_kept := interruptEntry_signals s i
  inputs_kept := interruptEntry_inputs s i

/-- Settles O15: the nine pushed bytes stand where they were pushed, and the vector is read from the memory they
leave. -/
theorem interruptEntrySavesTheContextAndVectors : Obligations.InterruptEntrySavesTheContextAndVectors := by
  rintro i s t rfl
  have stored {a b : Byte} (h : BusAccess.write a b ∈ entryWrites i s) : (interruptEntry i s).mem.read a = b :=
    interruptEntry_read_of_entryWrites h
  rw [interruptEntry_isReg]
  refine ⟨stored ?_, stored ?_, stored ?_, stored ?_, stored ?_, stored ?_, stored ?_, stored ?_, stored ?_,
    fun k hk => getLsbD_and_not_lineBit _ i hk, interruptEntry_spReg i s, interruptEntry_ie s i, ?vector,
    interruptEntry_fl s i, interruptEntry_onlyChanges i s, interruptEntry_bus_eq_entryWrites i s,
    fun hrun hsome => ?tick⟩
  case vector => rw [interruptEntry_pc, interruptEntry_mem]; rfl
  case tick => rw [tick_running s hrun, interruptPhase_of_line hsome]
  all_goals simp [entryWrites]

/-! ### IRET -/

/-- The return from an interrupt, after `ie` is set, changes registers, and PC and FL aside nothing else. -/
theorem interruptReturn_onlyChanges (s : State) :
    OnlyChanges [0, 1, 2, 3, 4, 5, 6, 7] [] (s.setIe true) (interruptReturn s) where
  regs_kept r hr := absurd (by revert r; decide) hr
  mem_kept a _ := by rw [interruptReturn_mem, setIe_mem]
  ir_kept := interruptReturn_ir s
  ie_kept := interruptReturn_ie s
  run_kept := interruptReturn_run s
  cause_kept := interruptReturn_cause s
  info_kept := interruptReturn_info s
  trace_kept := interruptReturn_trace s
  signals_kept := interruptReturn_signals s
  inputs_kept := interruptReturn_inputs s

/-- Settles O16: IRET answers `interruptReturn`, item by item. -/
theorem iretRestoresNineBytes : Obligations.IretRestoresNineBytes := fun s =>
  ⟨interruptReturn s, rfl, interruptReturn_reg s 6, interruptReturn_reg s 5, interruptReturn_reg s 4,
   interruptReturn_reg s 3, interruptReturn_reg s 2, interruptReturn_reg s 1, interruptReturn_reg s 0,
   interruptReturn_fl s, interruptReturn_pc s, interruptReturn_reg s 7, interruptReturn_ie s, interruptReturn_bus s,
   interruptReturn_onlyChanges s⟩

/-- The addresses of the nine pushes are the cells of the frame. -/
theorem mem_frameCells_of_mem_entryWrites {i : Line} {s : State} {a b : Byte}
    (h : BusAccess.write a b ∈ entryWrites i s) : a ∈ frameCells (s.reg spReg) := by
  simp only [entryWrites, frameCells, List.mem_cons, List.not_mem_nil, or_false, BusAccess.write.injEq] at h ⊢
  exact h.imp And.left <| Or.imp And.left <| Or.imp And.left <| Or.imp And.left <| Or.imp And.left <|
    Or.imp And.left <| Or.imp And.left <| Or.imp And.left And.left

/-- Going down `j` and up `k`. -/
theorem byte_sub_add (x j k : Byte) : x - j + k = x - (j - k) := by bv_omega

/-- Settles O17: each of the nine bytes is popped from where entry pushed it, `k` bytes up being `9 - k` below the old
SP. -/
theorem iretUndoesInterruptEntry : Obligations.IretUndoesInterruptEntry := by
  intro i s u hsp hframe
  rw [interruptEntry_spReg] at hsp
  have stored {a b : Byte} (h : BusAccess.write a b ∈ entryWrites i s) : u.mem.read a = b :=
    (hframe a (mem_frameCells_of_mem_entryWrites h)).trans (interruptEntry_read_of_entryWrites h)
  have popped {k b : Byte} (h : BusAccess.write (s.reg spReg - (9#8 - k)) b ∈ entryWrites i s) :
      u.mem.read (u.reg spReg + k) = b := by
    rw [hsp, byte_sub_add]
    exact stored h
  refine ⟨interruptReturn u, rfl, (interruptReturn_pc u).trans (popped ?_), (interruptReturn_fl u).trans (popped ?_),
    interruptReturn_ie u, fun r hr => ?regs, fun k hk => ?pending⟩
  case regs =>
    match r with
    | 0 | 1 | 2 | 3 | 4 | 5 => refine (interruptReturn_reg u _).trans (popped ?_); simp [entryWrites]
    | 6 => exact absurd rfl hr
    | 7 =>
      have hreturned : (interruptReturn u).reg 7 = u.reg spReg + 9#8 := interruptReturn_reg u 7
      rw [hreturned, hsp, BitVec.sub_add_cancel]
  case pending =>
    have htop : u.mem.read (u.reg spReg) = s.reg isReg &&& ~~~ lineBit i := by
      rw [hsp]
      exact stored (by simp [entryWrites])
    have hstatus : (interruptReturn u).reg 6 = s.reg isReg &&& ~~~ lineBit i := (interruptReturn_reg u 6).trans htop
    rw [hstatus, getLsbD_and_not_lineBit _ i hk]
  all_goals simp [entryWrites]

/-! ### INT -/

/-- Settles O20: after INT the eligible lines are those pending and unmasked by IM or by the register. -/
theorem unmaskedPendingLineIsEnteredNext : Obligations.UnmaskedPendingLineIsEnteredNext := by
  intro d i s t h hie hpending hmask hlow
  obtain ⟨u, hexec, rfl⟩ := execThenAdvance_next _ h
  obtain rfl := Host.Outcome.next.inj ((withReg_regByte d _).symm.trans hexec)
  have helig : eligibleLines (finishTick (s.setReg imReg (s.reg imReg ||| s.reg d))) =
      s.reg isReg &&& (s.reg imReg ||| s.reg d) := by
    rw [eligibleLines, finishTick_reg, finishTick_reg, setReg_reg_same, setReg_reg_ne _ _ _ _ (by decide)]
  refine interruptToEnter_eq_some.mpr ⟨(finishTick_ie _).trans hie, ?_, fun j hj => ?_⟩
  · rw [helig, BitVec.getLsbD_and, BitVec.getLsbD_or, hpending, hmask, Bool.or_true, Bool.and_true]
  · rw [helig]
    exact hlow j hj

/-! ### FL -/

/-- DIV and MOD neither read nor write FL. -/
theorem aluDivide_setFl (f : Byte → Byte → Byte) (a c : Byte) (s : State) (v : Byte) :
    aluDivide f a c (s.setFl v) = mapNext (fun t => t.setFl v) (aluDivide f a c s) := by
  refine withRegs_eq_mapNext a c fun _ _ => ?_
  rw [apply_ite (fun t : State => t.setFl v)]
  rfl

/-- Every action but CMP's, IRET's and the conditional jumps' commutes with a write of FL. -/
theorem exec_setFl {i : Instr} (hi : i.mnemonic ∉ [.CMP, .IRET, .JEQ, .JNE, .JGT, .JGE, .JLT, .JLE]) (s : State)
    (v : Byte) : exec i (s.setFl v) = mapNext (fun t => t.setFl v) (exec i s) := by
  cases i
  case cmp | iret | jeq | jne | jgt | jge | jlt | jle => exact absurd (by simp [Instr.mnemonic]) hi
  case nop | hlt | ret => rfl
  case div | mod => exact aluDivide_setFl _ _ _ s v
  case int | push | pop | prn | pra | call | jmp | inc | dec | not | ldi => exact withReg_eq_mapNext _ fun _ => rfl
  case ld | st | add | sub | mul | and | or | xor | shl | shr => exact withRegs_eq_mapNext _ _ fun _ _ => rfl

/-- A conditional jump leaves FL. -/
theorem jumpIf_fl {cond : Byte → Bool} {a : Byte} {s t : State} (h : jumpIf cond a s = .next t) : t.fl = s.fl := by
  obtain ⟨-, rfl⟩ := withReg_next h
  split <;> rfl

/-- Each flag has its own bit. -/
theorem flagIndex_injective {f g : Flag} : flagIndex g = flagIndex f → g = f := by
  cases f <;> cases g <;> decide

/-- Settles O30: instruction by instruction, and `setFlag` by the bit it writes. -/
theorem flagsBelongToCmpIretAndTheJumps : Obligations.FlagsBelongToCmpIretAndTheJumps := by
  refine ⟨fun i s v hi => exec_setFl hi s v, fun i s t hi h => ?jumps,
    fun d r s => ⟨_, withRegs_regByte d r _, fun k hk => compareFlags_getLsbD_high _ _ _ hk⟩,
    fun s => ⟨interruptReturn s, rfl, interruptReturn_fl s⟩, fun _ => rfl,
    fun i s => interruptEntry_read_of_entryWrites (by simp [entryWrites]),
    fun f g b fl => ⟨?own, fun hne => ?other, fun k hk => setFlag_getLsbD_high f b fl hk⟩⟩
  case jumps =>
    cases i
    case jeq | jne | jgt | jge | jlt | jle => exact jumpIf_fl h
    all_goals simp [Instr.mnemonic] at hi
  case own => rw [getFlag, setFlag_getLsbD, if_pos rfl]
  case other => rw [getFlag, setFlag_getLsbD, if_neg (mt flagIndex_injective hne), getFlag]

end Sys2Proof.Machine
end

section
/-! The fetch sees every store (20_memory.md R70, R74), and the step after an instruction has been placed at PC
(log 12). -/

namespace Sys2Proof.Machine

open Sys2Proof.Safety

/-! ### what the next fetch reads -/

/-- Steps 2 to 6 leave in IR the byte at the PC they started from: no action writes IR. -/
theorem instructionPhase_ir {s t : State} (h : instructionPhase s = .next t) : t.ir = s.mem.read s.pc := by
  rcases instructionPhase_next h with ⟨-, rfl⟩ | ⟨i, rest, v, -, hexec, rfl⟩
  · rfl
  · rw [finishTick_ir, exec_ir hexec, afterFetch_ir]

/-- So does a step that has no event due and no line to enter. -/
theorem step_quiet_ir {s t : State} (hrun : s.run = .running) (hdue : s.dueInputs = [])
    (hnone : interruptToEnter s = none) (h : step s = .next t) : t.ir = s.mem.read s.pc :=
  instructionPhase_ir (s := { s with inputs := s.inputs.tail })
    ((step_quiet_of_no_line hrun hdue hnone).symm.trans h)

/-- A step that enters a line runs steps 2 to 6 from the memory, PC and accesses its entry left. -/
theorem step_entering {i : Line} {s t : State} (hrun : s.run = .running) (hdue : s.dueInputs = [])
    (hsome : interruptToEnter s = some i) (h : step s = .next t) :
    ∃ u, instructionPhase u = .next t ∧ u.mem = (interruptEntry i s).mem ∧ u.pc = (interruptEntry i s).pc ∧
      u.bus = (interruptEntry i s).bus :=
  ⟨_, (step_quiet_of_line hrun hdue hsome).symm.trans h, rfl, rfl, rfl⟩

/-- Steps 2 to 6 keep a byte that none of their accesses stores to. -/
theorem instructionPhase_read_of_no_write {s t : State} {a : Byte} {accesses : List BusAccess}
    (h : instructionPhase s = .next t) (hbus : t.bus = s.bus ++ accesses)
    (hno : ∀ c, BusAccess.write a c ∉ accesses) : t.mem.read a = s.mem.read a := by
  rcases instructionPhase_next h with ⟨-, rfl⟩ | ⟨i, rest, v, -, hexec, rfl⟩
  · rfl
  · rw [finishTick_bus, exec_bus i _ v hexec, afterFetch_bus, List.append_assoc] at hbus
    obtain rfl := List.append_cancel_left hbus
    rw [finishTick_mem]
    exact exec_read_of_no_write i (afterFetch s) v a hexec fun c hc => hno c (List.mem_append_right _ hc)

/-- ST, PUSH and CALL leave their byte where they store it, and the core running. -/
theorem execThenAdvance_store {d r : Reg} {i : Instr} {a b : Byte} {s t : State}
    (hi : (i = .st (regByte d) (regByte r) ∧ a = s.reg d ∧ b = s.reg r) ∨
      (i = .push (regByte d) ∧ a = s.reg 7 - 1 ∧ b = s.reg d) ∨
      (i = .call (regByte d) ∧ a = s.reg 7 - 1 ∧ b = s.pc + 2))
    (h : execThenAdvance i s = .next t) : t.run = s.run ∧ t.mem.read a = b := by
  obtain ⟨u, hexec, rfl⟩ := execThenAdvance_next _ h
  rw [finishTick_run, finishTick_mem]
  rcases hi with ⟨rfl, rfl, rfl⟩ | ⟨rfl, rfl, rfl⟩ | ⟨rfl, rfl, rfl⟩
  · obtain rfl := Host.Outcome.next.inj ((withRegs_regByte d r _).symm.trans hexec)
    exact ⟨rfl, read_write_same _ _ _⟩
  all_goals
    obtain rfl := Host.Outcome.next.inj ((withReg_regByte d _).symm.trans hexec)
    exact ⟨rfl, read_write_same _ _ _⟩

/-- On the bytes of an ST steps 2 to 6 are that store and an advance of 3, even where it stores over those bytes. -/
theorem instructionPhase_st {d r : Reg} {u : State} (hrun : u.run = .running)
    (hbytes : [u.mem.read u.pc, u.mem.read (u.pc + 1), u.mem.read (u.pc + 2)] = encode (.st (regByte d) (regByte r))) :
    instructionPhase u = .next ((memWrite (u.reg d) (u.reg r) (afterFetch u)).setPc (u.pc + 3)) := by
  have hdec : decode (encode (.st (regByte d) (regByte r))) = .ok (.st (regByte d) (regByte r), []) :=
    decode_encode (by simp [Instr.wellFormed, Instr.registerOperands]) []
  have hexec : exec (.st (regByte d) (regByte r)) (afterFetch u) =
      .next (memWrite (u.reg d) (u.reg r) (afterFetch u)) := withRegs_regByte d r _
  have hir : u.mem.read u.pc = 0x84#8 := (List.cons.inj hbytes).1
  have hadvance : finishTick (memWrite (u.reg d) (u.reg r) (afterFetch u)) =
      (memWrite (u.reg d) (u.reg r) (afterFetch u)).setPc (u.pc + 1 + operandCountOf (u.mem.read u.pc)) :=
    finishTick_of_not_setsPc (by rw [memWrite_ir, afterFetch_ir, hir]; rfl) (.inl hrun)
  rw [instructionPhase_of_decode (hbytes ▸ hdec), execThenAdvance_of_next hexec, hadvance, hir, byte_add_add]
  rfl

/-- Settles O13: a stored or pushed byte stands in memory at the next fetch, and an ST's own bytes were read before its
store. -/
theorem fetchIsCoherentWithStores : Obligations.FetchIsCoherentWithStores := by
  refine ⟨?store, ?entry, ?afterEntry, fun d r u hrun hbytes => ?own⟩
  case store =>
    intro d r i a b s t v hi hrun h hpc hdue hnone hstep
    obtain ⟨hkept, hstored⟩ := execThenAdvance_store hi h
    rw [step_quiet_ir (hkept.trans hrun) hdue hnone hstep, hpc, hstored]
  case entry =>
    intro i a b s t hrun hdue hsome hpushed hpc hstep
    obtain ⟨u, hphase, hmem, hupc, -⟩ := step_entering hrun hdue hsome hstep
    rw [instructionPhase_ir hphase, hmem, hupc, hpc, interruptEntry_read_of_entryWrites hpushed]
  case afterEntry =>
    intro i a b accesses s t v hrun hdue hsome hpushed hstep hbus hno hruns hdue' hnone hpc hnext
    obtain ⟨u, hphase, hmem, -, hubus⟩ := step_entering hrun hdue hsome hstep
    rw [step_quiet_ir hruns hdue' hnone hnext, hpc,
      instructionPhase_read_of_no_write hphase (hubus ▸ hbus) hno, hmem, interruptEntry_read_of_entryWrites hpushed]
  case own => exact ⟨_, instructionPhase_st hrun hbytes, rfl, fun a => read_write _ _ _ a⟩

/-! ### the placing of an instruction -/

/-- Three bytes written at rising addresses are read back, at the top of the address space too. -/
theorem read_write_three (m : Memory) (p b0 b1 b2 : Byte) {m' : Memory}
    (hm : m' = ((m.write p b0).write (p + 1) b1).write (p + 2) b2) :
    [m'.read p, m'.read (p + 1), m'.read (p + 2)] = [b0, b1, b2] := by
  have h01 : p ≠ p + 1 := by bv_omega
  have h02 : p ≠ p + 2 := by bv_omega
  have h12 : p + 1 ≠ p + 2 := by bv_omega
  rw [hm, read_write_same, read_write_ne _ _ h12, read_write_same, read_write_ne _ _ h02, read_write_ne _ _ h01,
    read_write_same]

/-- The memory an instruction word leaves where it is placed. -/
theorem withFetchWord_mem (s : State) (nbits w : Nat) : (s.withFetchWord nbits w).mem =
    ((s.mem.write s.pc (byteOfNumber (w % 2 ^ nbits) 0)).write (s.pc + 1) (byteOfNumber (w % 2 ^ nbits) 1)).write
      (s.pc + 2) (byteOfNumber (w % 2 ^ nbits) 2) := by
  have htwo : s.pc + 2 = s.pc + 1#8 + 1#8 := (byte_add_add s.pc 1#8 1#8).symm
  rw [htwo]
  rfl

/-- The three bytes at PC are then those of the word. -/
theorem withFetchWord_bytes (s : State) (nbits w : Nat) :
    [(s.withFetchWord nbits w).mem.read s.pc, (s.withFetchWord nbits w).mem.read (s.pc + 1),
      (s.withFetchWord nbits w).mem.read (s.pc + 2)] = bytesOfNumber nbits w :=
  read_write_three s.mem s.pc _ _ _ (withFetchWord_mem s nbits w)

/-- `readyToFetch` drops the events of the next boundary. -/
theorem readyToFetch_dueInputs (s : State) : (readyToFetch s).dueInputs = [] := by
  rw [readyToFetch, State.dueInputs]
  cases s.inputs <;> rfl

/-- `readyToFetch` leaves no line to enter: it closes the gate if there was one. -/
theorem readyToFetch_interruptToEnter (s : State) : interruptToEnter (readyToFetch s) = none := by
  cases h : interruptToEnter s with
  | some i => exact interruptToEnter_of_ie_false (by rw [readyToFetch, h]; exact Bool.and_false s.ie)
  | none =>
    have hie : (readyToFetch s).ie = s.ie := by rw [readyToFetch, h]; exact Bool.and_true s.ie
    rw [interruptToEnter, hie]
    exact h

/-- A word of the opcode table decodes as its three bytes do. -/
theorem decode_of_decodeTableWord {nbits w : Nat} {i : Instr} (h : decodeTableWord nbits w = some i) :
    ∃ rest, decode (bytesOfNumber nbits w) = .ok (i, rest) := by
  unfold decodeTableWord at h
  split at h
  next j rest hdec => exact ⟨rest, Option.some.inj h ▸ hdec⟩
  next => cases h

/-- Settles O51: the placed bytes are the ones fetched, with no event due and no line to enter. -/
theorem withFetchWordRunsTheInstruction : Obligations.WithFetchWordRunsTheInstruction := by
  intro s nbits w i h
  obtain ⟨rest, hdec⟩ := decode_of_decodeTableWord h
  obtain ⟨-, hencoded⟩ := encode_decode hdec
  have hbytes := withFetchWord_bytes s nbits w
  refine ⟨_, stepRunsTheDecodedInstruction (s.withFetchWord nbits w) i rest rfl (readyToFetch_dueInputs s)
    (readyToFetch_interruptToEnter s) ((congrArg decode hbytes).trans hdec), rfl, ?opcode, rfl, rfl, fun _ => rfl,
    fun a ha => ?kept⟩
  case opcode => exact (List.cons.inj (hbytes.trans hencoded)).1
  case kept =>
    simp only [List.mem_cons, List.not_mem_nil, or_false, not_or] at ha
    obtain ⟨h0, h1, h2⟩ := ha
    rw [afterFetch_mem, withFetchWord_mem, read_write_ne _ _ h2, read_write_ne _ _ h1, read_write_ne _ _ h0]

end Sys2Proof.Machine
end
